-- ==== Sys2Proof/Word.lean ====
section
/-! DEFINITION. The word types of the core (00_scope.md R6, R9): everything is an unsigned value of a fixed width. -/

namespace Sys2Proof

/-- 8 bits: a general register, a timer, a memory cell (REG_BITS, TIMER_BITS). -/
abbrev Byte := BitVec 8

/-- 16 bits: an instruction word, `pc`, `I`, a stack slot, the keypad latch. -/
abbrev Word := BitVec 16

/-- 4 bits: a nibble of an instruction word; names a general register or a key. -/
abbrev Nibble := BitVec 4

/-- 12 bits: the address field `nnn` of an instruction word. -/
abbrev Addr := BitVec 12

end Sys2Proof
end

