-- ==== Sys2Proof/Config.lean ====
section
/-! DEFINITION. The constants the spec fixes for this hardware (00_scope.md R6) and the one free value (42_random.md R171). -/

namespace Sys2Proof

/-- MEM_SIZE. -/
@[simp] abbrev Config.memSize : Nat := 4096

/-- LOAD_ADDR: where a program is loaded and where `pc` starts. -/
@[simp] abbrev Config.loadAddr : Nat := 0x200

/-- FONT_BASE. -/
@[simp] abbrev Config.fontBase : Nat := 0x050

/-- FONT_SIZE. -/
@[simp] abbrev Config.fontSize : Nat := 80

/-- GLYPH_BYTES. -/
@[simp] abbrev Config.glyphBytes : Nat := 5

/-- INSTR_BYTES. -/
@[simp] abbrev Config.instrBytes : Nat := 2

/-- FB_W. -/
@[simp] abbrev Config.fbWidth : Nat := 64

/-- FB_H. -/
@[simp] abbrev Config.fbHeight : Nat := 32

/-- FREE VALUE (42_random.md R171, 92_eei_decisions.md D18): the byte the environment puts on the port `rnd` at the
k-th draw that `State.rnd` does not supply. It has no body, so nothing can be proved of its value. Log 3. -/
opaque Config.rnd : Nat → Byte

end Sys2Proof
end

