-- ==== Sys2Proof/Syntax.lean ====
section
/-! DEFINITION. The 34 instructions (30_encoding.md R107), in the order of that table. Operands are the fields of R97 at
their exact widths; bits the decoder does not examine (R106) are no operands. -/

namespace Sys2Proof

inductive Instr where
  /-- `00E0` CLS -/
  | cls
  /-- `00EE` RET -/
  | ret
  /-- `1nnn` JP addr -/
  | jp (nnn : Addr)
  /-- `2nnn` CALL addr -/
  | call (nnn : Addr)
  /-- `3xkk` SE Vx, byte -/
  | seByte (x : Nibble) (kk : Byte)
  /-- `4xkk` SNE Vx, byte -/
  | sneByte (x : Nibble) (kk : Byte)
  /-- `5xy0` SE Vx, Vy -/
  | seReg (x y : Nibble)
  /-- `6xkk` LD Vx, byte -/
  | ldByte (x : Nibble) (kk : Byte)
  /-- `7xkk` ADD Vx, byte -/
  | addByte (x : Nibble) (kk : Byte)
  /-- `8xy0` LD Vx, Vy -/
  | ldReg (x y : Nibble)
  /-- `8xy1` OR Vx, Vy -/
  | orReg (x y : Nibble)
  /-- `8xy2` AND Vx, Vy -/
  | andReg (x y : Nibble)
  /-- `8xy3` XOR Vx, Vy -/
  | xorReg (x y : Nibble)
  /-- `8xy4` ADD Vx, Vy -/
  | addReg (x y : Nibble)
  /-- `8xy5` SUB Vx, Vy -/
  | subReg (x y : Nibble)
  /-- `8x06` SHR Vx -/
  | shr (x : Nibble)
  /-- `8xy7` SUBN Vx, Vy -/
  | subnReg (x y : Nibble)
  /-- `8x0E` SHL Vx -/
  | shl (x : Nibble)
  /-- `9xy0` SNE Vx, Vy -/
  | sneReg (x y : Nibble)
  /-- `Annn` LD I, addr -/
  | ldI (nnn : Addr)
  /-- `Bnnn` JP V0, addr -/
  | jpV0 (nnn : Addr)
  /-- `Cxkk` RND Vx, byte -/
  | rnd (x : Nibble) (kk : Byte)
  /-- `Dxyn` DRW Vx, Vy, nibble -/
  | drw (x y n : Nibble)
  /-- `Ex9E` SKP Vx -/
  | skp (x : Nibble)
  /-- `ExA1` SKNP Vx -/
  | sknp (x : Nibble)
  /-- `Fx07` LD Vx, DT -/
  | ldRegDt (x : Nibble)
  /-- `Fx0A` LD Vx, K -/
  | ldKey (x : Nibble)
  /-- `Fx15` LD DT, Vx -/
  | ldDtReg (x : Nibble)
  /-- `Fx18` LD ST, Vx -/
  | ldStReg (x : Nibble)
  /-- `Fx1E` ADD I, Vx -/
  | addI (x : Nibble)
  /-- `Fx29` LD F, Vx -/
  | ldFont (x : Nibble)
  /-- `Fx33` LD B, Vx -/
  | ldBcd (x : Nibble)
  /-- `Fx55` LD [I], Vx -/
  | storeRegs (x : Nibble)
  /-- `Fx65` LD Vx, [I] -/
  | loadRegs (x : Nibble)
  deriving DecidableEq, Repr

end Sys2Proof
end

