-- ==== Sys2Proof/Decode.lean ====
section
/-! DEFINITION. The decoder (30_encoding.md R97, R100 to R106, R112), the encoder (R107) and the opcode map as a table of
masks (R107). -/

namespace Sys2Proof

/-! ## Fields of the instruction word (00_scope.md R10) -/

/-- `op = w[15:12]` -/
def opField (w : Word) : Nibble := w.extractLsb' 12 4

/-- `x = w[11:8]` -/
def xField (w : Word) : Nibble := w.extractLsb' 8 4

/-- `y = w[7:4]` -/
def yField (w : Word) : Nibble := w.extractLsb' 4 4

/-- `n = w[3:0]` -/
def nField (w : Word) : Nibble := w.extractLsb' 0 4

/-- `kk = w[7:0]` -/
def kkField (w : Word) : Byte := w.extractLsb' 0 8

/-- `nnn = w[11:0]` -/
def nnnField (w : Word) : Addr := w.extractLsb' 0 12

/-! ## The decoder -/

/-- Why bytes do not decode. -/
inductive DecodeError where
  /-- Fewer than the two bytes of an instruction (R92); the machine's own fetch always has two. -/
  | truncated
  /-- The word matches no row of the opcode map (R112). -/
  | unknownOpcode (w : Word)
  deriving DecidableEq, Repr

/-- Family 0, on `w[3:0]` (R101); `w[11:4]` is not examined. -/
def decodeFamily0 (w : Word) : Except DecodeError Instr :=
  match nField w with
  | 0x0#4 => .ok .cls
  | 0xE#4 => .ok .ret
  | _ => .error (.unknownOpcode w)

/-- Family 8, on `w[3:0]` (R102). -/
def decodeFamily8 (w : Word) : Except DecodeError Instr :=
  match nField w with
  | 0x0#4 => .ok (.ldReg (xField w) (yField w))
  | 0x1#4 => .ok (.orReg (xField w) (yField w))
  | 0x2#4 => .ok (.andReg (xField w) (yField w))
  | 0x3#4 => .ok (.xorReg (xField w) (yField w))
  | 0x4#4 => .ok (.addReg (xField w) (yField w))
  | 0x5#4 => .ok (.subReg (xField w) (yField w))
  | 0x6#4 => .ok (.shr (xField w))
  | 0x7#4 => .ok (.subnReg (xField w) (yField w))
  | 0xE#4 => .ok (.shl (xField w))
  | _ => .error (.unknownOpcode w)

/-- Family E, on `w[7:0]` (R103). -/
def decodeFamilyE (w : Word) : Except DecodeError Instr :=
  match kkField w with
  | 0x9E#8 => .ok (.skp (xField w))
  | 0xA1#8 => .ok (.sknp (xField w))
  | _ => .error (.unknownOpcode w)

/-- Family F, on `w[7:0]` (R104). -/
def decodeFamilyF (w : Word) : Except DecodeError Instr :=
  match kkField w with
  | 0x07#8 => .ok (.ldRegDt (xField w))
  | 0x0A#8 => .ok (.ldKey (xField w))
  | 0x15#8 => .ok (.ldDtReg (xField w))
  | 0x18#8 => .ok (.ldStReg (xField w))
  | 0x1E#8 => .ok (.addI (xField w))
  | 0x29#8 => .ok (.ldFont (xField w))
  | 0x33#8 => .ok (.ldBcd (xField w))
  | 0x55#8 => .ok (.storeRegs (xField w))
  | 0x65#8 => .ok (.loadRegs (xField w))
  | _ => .error (.unknownOpcode w)

/-- The first level, on `w[15:12]` (R100). The sixteen values are all named; the last arm is never reached. -/
def decodeWord (w : Word) : Except DecodeError Instr :=
  match opField w with
  | 0x0#4 => decodeFamily0 w
  | 0x1#4 => .ok (.jp (nnnField w))
  | 0x2#4 => .ok (.call (nnnField w))
  | 0x3#4 => .ok (.seByte (xField w) (kkField w))
  | 0x4#4 => .ok (.sneByte (xField w) (kkField w))
  | 0x5#4 => .ok (.seReg (xField w) (yField w))
  | 0x6#4 => .ok (.ldByte (xField w) (kkField w))
  | 0x7#4 => .ok (.addByte (xField w) (kkField w))
  | 0x8#4 => decodeFamily8 w
  | 0x9#4 => .ok (.sneReg (xField w) (yField w))
  | 0xA#4 => .ok (.ldI (nnnField w))
  | 0xB#4 => .ok (.jpV0 (nnnField w))
  | 0xC#4 => .ok (.rnd (xField w) (kkField w))
  | 0xD#4 => .ok (.drw (xField w) (yField w) (nField w))
  | 0xE#4 => decodeFamilyE w
  | 0xF#4 => decodeFamilyF w
  | _ => .error (.unknownOpcode w)

/-- The instruction word of two bytes, the first the high one (20_memory.md R65, 92_eei_decisions.md D1). -/
def wordOfBytes (hi lo : Byte) : Word := hi ++ lo

/-- The high byte of a word: the one stored first. -/
def hiByte (w : Word) : Byte := w.extractLsb' 8 8

/-- The low byte of a word: the one stored second. -/
def loByte (w : Word) : Byte := w.extractLsb' 0 8

/-- Decode the instruction at the head of a byte sequence and give the bytes after it; total on any bytes. -/
def decode : List Byte → Except DecodeError (Instr × List Byte)
  | hi :: lo :: rest =>
    match decodeWord (wordOfBytes hi lo) with
    | .ok ins => .ok (ins, rest)
    | .error e => .error e
  | _ => .error .truncated

/-! ## The encoder: the canonical word of each instruction (R107) -/

/-- A word of four nibbles, the first the top one (R93). -/
def nibbles (a b c d : Nibble) : Word := a ++ b ++ c ++ d

/-- A word of a nibble and a 12-bit address (format NNN). -/
def nibbleAddr (a : Nibble) (nnn : Addr) : Word := a ++ nnn

/-- A word of two nibbles and a byte (formats XKK and XSS). -/
def nibblesByte (a b : Nibble) (kk : Byte) : Word := a ++ b ++ kk

/-- The canonical word of an instruction: bits the decoder does not examine are as in the map's canonical pattern. -/
def encodeWord : Instr → Word
  | .cls => 0x00E0#16
  | .ret => 0x00EE#16
  | .jp nnn => nibbleAddr 0x1#4 nnn
  | .call nnn => nibbleAddr 0x2#4 nnn
  | .seByte x kk => nibblesByte 0x3#4 x kk
  | .sneByte x kk => nibblesByte 0x4#4 x kk
  | .seReg x y => nibbles 0x5#4 x y 0x0#4
  | .ldByte x kk => nibblesByte 0x6#4 x kk
  | .addByte x kk => nibblesByte 0x7#4 x kk
  | .ldReg x y => nibbles 0x8#4 x y 0x0#4
  | .orReg x y => nibbles 0x8#4 x y 0x1#4
  | .andReg x y => nibbles 0x8#4 x y 0x2#4
  | .xorReg x y => nibbles 0x8#4 x y 0x3#4
  | .addReg x y => nibbles 0x8#4 x y 0x4#4
  | .subReg x y => nibbles 0x8#4 x y 0x5#4
  | .shr x => nibbles 0x8#4 x 0x0#4 0x6#4
  | .subnReg x y => nibbles 0x8#4 x y 0x7#4
  | .shl x => nibbles 0x8#4 x 0x0#4 0xE#4
  | .sneReg x y => nibbles 0x9#4 x y 0x0#4
  | .ldI nnn => nibbleAddr 0xA#4 nnn
  | .jpV0 nnn => nibbleAddr 0xB#4 nnn
  | .rnd x kk => nibblesByte 0xC#4 x kk
  | .drw x y n => nibbles 0xD#4 x y n
  | .skp x => nibblesByte 0xE#4 x 0x9E#8
  | .sknp x => nibblesByte 0xE#4 x 0xA1#8
  | .ldRegDt x => nibblesByte 0xF#4 x 0x07#8
  | .ldKey x => nibblesByte 0xF#4 x 0x0A#8
  | .ldDtReg x => nibblesByte 0xF#4 x 0x15#8
  | .ldStReg x => nibblesByte 0xF#4 x 0x18#8
  | .addI x => nibblesByte 0xF#4 x 0x1E#8
  | .ldFont x => nibblesByte 0xF#4 x 0x29#8
  | .ldBcd x => nibblesByte 0xF#4 x 0x33#8
  | .storeRegs x => nibblesByte 0xF#4 x 0x55#8
  | .loadRegs x => nibblesByte 0xF#4 x 0x65#8

/-- The two bytes of an instruction as memory holds them. -/
def encode (ins : Instr) : List Byte := [hiByte (encodeWord ins), loByte (encodeWord ins)]

/-! ## The opcode map as masks (R107) -/

/-- One row of the map: a word is of the row when `w AND mask = value`. -/
structure OpcodeRow where
  mnemonic : String
  mask : Word
  value : Word
  deriving DecidableEq, Repr

/-- The map's test. -/
def OpcodeRow.covers (r : OpcodeRow) (w : Word) : Bool := w &&& r.mask == r.value

/-- Families 0 to 7. -/
def opcodeRows0 : List OpcodeRow :=
  [⟨"CLS", 0xF00F, 0x0000⟩, ⟨"RET", 0xF00F, 0x000E⟩, ⟨"JP_addr", 0xF000, 0x1000⟩, ⟨"CALL_addr", 0xF000, 0x2000⟩,
   ⟨"SE_Vx__byte", 0xF000, 0x3000⟩, ⟨"SNE_Vx__byte", 0xF000, 0x4000⟩, ⟨"SE_Vx__Vy", 0xF000, 0x5000⟩,
   ⟨"LD_Vx__byte", 0xF000, 0x6000⟩, ⟨"ADD_Vx__byte", 0xF000, 0x7000⟩]

/-- Family 8. -/
def opcodeRows8 : List OpcodeRow :=
  [⟨"LD_Vx__Vy", 0xF00F, 0x8000⟩, ⟨"OR_Vx__Vy", 0xF00F, 0x8001⟩, ⟨"AND_Vx__Vy", 0xF00F, 0x8002⟩,
   ⟨"XOR_Vx__Vy", 0xF00F, 0x8003⟩, ⟨"ADD_Vx__Vy", 0xF00F, 0x8004⟩, ⟨"SUB_Vx__Vy", 0xF00F, 0x8005⟩,
   ⟨"SHR_Vx", 0xF00F, 0x8006⟩, ⟨"SUBN_Vx__Vy", 0xF00F, 0x8007⟩, ⟨"SHL_Vx", 0xF00F, 0x800E⟩]

/-- Families 9 to E. -/
def opcodeRows9 : List OpcodeRow :=
  [⟨"SNE_Vx__Vy", 0xF000, 0x9000⟩, ⟨"LD_I__addr", 0xF000, 0xA000⟩, ⟨"JP_V0__addr", 0xF000, 0xB000⟩,
   ⟨"RND_Vx__byte", 0xF000, 0xC000⟩, ⟨"DRW_Vx__Vy__nibble", 0xF000, 0xD000⟩, ⟨"SKP_Vx", 0xF0FF, 0xE09E⟩,
   ⟨"SKNP_Vx", 0xF0FF, 0xE0A1⟩]

/-- Family F. -/
def opcodeRowsF : List OpcodeRow :=
  [⟨"LD_Vx__DT", 0xF0FF, 0xF007⟩, ⟨"LD_Vx__K", 0xF0FF, 0xF00A⟩, ⟨"LD_DT__Vx", 0xF0FF, 0xF015⟩,
   ⟨"LD_ST__Vx", 0xF0FF, 0xF018⟩, ⟨"ADD_I__Vx", 0xF0FF, 0xF01E⟩, ⟨"LD_F__Vx", 0xF0FF, 0xF029⟩,
   ⟨"LD_B__Vx", 0xF0FF, 0xF033⟩, ⟨"LD__I___Vx", 0xF0FF, 0xF055⟩, ⟨"LD_Vx___I", 0xF0FF, 0xF065⟩]

/-- The 34 rows of R107. -/
def opcodeMap : List OpcodeRow := opcodeRows0 ++ opcodeRows8 ++ opcodeRows9 ++ opcodeRowsF

/-! ## The host's reading of one table word -/

/-- The instruction this decoder reads from a table word of `nbits` bits (bits above `nbits` are 0): one 16-bit word, laid
out high byte first. -/
def decodeTableWord (nbits w : Nat) : Option Instr :=
  let word := BitVec.ofNat 16 (w % 2 ^ nbits)
  match decode [hiByte word, loByte word] with
  | .ok (ins, _) => some ins
  | .error _ => none

end Sys2Proof
end

