-- ==== Sys2Proof/Machine/State.lean ====
section
/-! DEFINITION. The state of the core (10_state.md R20 to R38), as plain data. INVENTORY.md '## State' lists every field
with its rule and reset value. -/

namespace Sys2Proof.Machine

/-- MEM as the bytes that differ from what an unlisted address reads as, by strictly rising address (`Memory.wf`). -/
abbrev Memory := List Host.Cell

/-- FB: row `r` (0 to 31, top first) of column `c` (0 to 63, left first), true for a set pixel (R30). -/
abbrev Framebuffer := Vector (Vector Bool 64) 32

/-- CAUSE (60_exceptions.md R240): the four values of the 2-bit code, by name; `Cause.code` gives the number. -/
inductive Cause where
  /-- 0: no fault. -/
  | noFault
  /-- 1: the fetched word matches no row of the opcode map. -/
  | unknownOpcode
  /-- 2: CALL with 16 return addresses held. -/
  | stackOverflow
  /-- 3: RET with none held. -/
  | stackUnderflow
  deriving DecidableEq, Repr

/-- The events of the four agents (10_state.md R20). -/
inductive Event where
  /-- The core's `Step`. -/
  | step
  /-- The timer's `Tick`. -/
  | tick
  /-- The keypad writer's `SetKeys(k)`: bit `i` of `keys` is key `i`. -/
  | setKeys (keys : Word)
  /-- The host's `Reset`. -/
  | reset
  /-- The host's `Load(bytes)`. -/
  | load (bytes : List Byte)
  deriving DecidableEq, Repr

/-- Nothing raises a `fault` outcome: the three faults of this core (60_exceptions.md R240) are states of it, entered by
the NEXT state of R244 and left only by `Reset` (R245), and nothing else can fault (R240). Safe: no step is cut short. -/
inductive Fault where
  deriving DecidableEq, Repr

/-- Why an event is refused. -/
inductive Refusal where
  /-- An instruction with no meaning in this model; raised by an arm of `exec` that has none (there is no such arm).
  Safe. -/
  | notModelled (mnemonic : String)
  /-- Raised by the host event `Load` when its image has more than 3584 bytes: "this spec refuses such a load (it is not a
  state of the machine at all)" (70_reset_and_hazards.md R284). Safe. -/
  | loadTooLong (length : Nat)
  /-- Raised by the host event `Load` after the first `Step`: "allowed only after Reset and before the first Step"
  (70_reset_and_hazards.md R284). Safe. -/
  | loadAfterFirstStep
  deriving DecidableEq, Repr

/-- The state. The first sixteen fields are the spec's; the last five are the model's own (INVENTORY.md '## State'). -/
structure State where
  /-- V0 to VF (R21); VF is the flag register (R22). -/
  v : Vector Byte 16
  /-- I (R25). -/
  index : Word
  /-- The program counter (R23). -/
  pc : Word
  /-- STACK[0] to STACK[15] (R26). -/
  stack : Vector Word 16
  /-- SP: how many return addresses are held, 0 to 16 (R26). -/
  sp : Fin 17
  /-- DT (R27). -/
  dt : Byte
  /-- ST (R27). -/
  st : Byte
  /-- MEM (R29). -/
  mem : Memory
  /-- FB (R30). -/
  fb : Framebuffer
  /-- KEYS, the input latch (R31): bit `k` is key `k`. -/
  keys : Word
  /-- WAIT: awaiting a key (R32). -/
  wait : Bool
  /-- WAITREG: the register that will receive the key (R32). -/
  waitReg : Nibble
  /-- KEYPREV: the latch as last sampled while waiting (R33). -/
  keyPrev : Word
  /-- HALT (R34). -/
  halt : Bool
  /-- CAUSE (R34). -/
  cause : Cause
  /-- FAULTWORD (R34). -/
  faultWord : Word
  /-- MODEL: the word `w` the current Step fetched (30_encoding.md R90), which a fault records (60_exceptions.md R244).
  Log 4. -/
  ir : Word
  /-- MODEL: `Load` is allowed: after `Reset` and before the first `Step` (70_reset_and_hazards.md R284). Log 5. -/
  loadable : Bool
  /-- MODEL: the coming events, oldest first; when there is none the next event is the core's `Step`. Log 1. -/
  events : List Event
  /-- MODEL: the bytes the environment has put on the port `rnd` for the coming draws (R37). Log 3. -/
  rnd : List Byte
  /-- MODEL: how many draws `rnd` did not supply: the next one takes the free value `Config.rnd draws`. Log 3. -/
  draws : Nat
  deriving DecidableEq, Repr

/-- The state after `Reset` (R38, 70_reset_and_hazards.md R280), with memory at its reset content (nothing listed). The
spec gives no value for KEYS (log 2) nor for the model's own fields (logs 1, 3, 4, 5). -/
def State.reset : State where
  v := Vector.replicate 16 0x00#8
  index := 0x0000#16
  pc := 0x0200#16
  stack := Vector.replicate 16 0x0000#16
  sp := 0
  dt := 0x00#8
  st := 0x00#8
  mem := []
  fb := Vector.replicate 32 (Vector.replicate 64 false)
  keys := 0x0000#16
  wait := false
  waitReg := 0x0#4
  keyPrev := 0x0000#16
  halt := false
  cause := .noFault
  faultWord := 0x0000#16
  ir := 0x0000#16
  loadable := true
  events := []
  rnd := []
  draws := 0

end Sys2Proof.Machine
end

