-- ==== Sys2Proof/Machine/Ops.lean ====
section
/-! DEFINITION. The shared operations over memory, registers, the stack, the framebuffer and the fault registers. -/

namespace Sys2Proof.Machine

/-! ## Memory (20_memory.md) -/

/-- The font table's bytes (20_memory.md R70), glyphs 0 to 7. -/
def fontGlyphs0to7 : List Byte :=
  [0xF0, 0x90, 0x90, 0x90, 0xF0,  0x20, 0x60, 0x20, 0x20, 0x70,  0xF0, 0x10, 0xF0, 0x80, 0xF0,
   0xF0, 0x10, 0xF0, 0x10, 0xF0,  0x90, 0x90, 0xF0, 0x10, 0x10,  0xF0, 0x80, 0xF0, 0x10, 0xF0,
   0xF0, 0x80, 0xF0, 0x90, 0xF0,  0xF0, 0x10, 0x20, 0x40, 0x40]

/-- The font table's bytes (20_memory.md R70), glyphs 8 to F. -/
def fontGlyphs8toF : List Byte :=
  [0xF0, 0x90, 0xF0, 0x90, 0xF0,  0xF0, 0x90, 0xF0, 0x10, 0xF0,  0xF0, 0x90, 0xF0, 0x90, 0x90,
   0xE0, 0x90, 0xE0, 0x90, 0xE0,  0xF0, 0x80, 0x80, 0x80, 0xF0,  0xE0, 0x90, 0x90, 0x90, 0xE0,
   0xF0, 0x80, 0xF0, 0x80, 0xF0,  0xF0, 0x80, 0xF0, 0x80, 0x80]

/-- The 80 bytes of the font table (20_memory.md R70). -/
def fontTable : List Byte := fontGlyphs0to7 ++ fontGlyphs8toF

/-- What an address that memory does not list reads as: the content after `Reset` (70_reset_and_hazards.md R280), the font
table at 0x050 to 0x09F and 0x00 elsewhere. -/
def memInitial (a : Nat) : Byte :=
  if Config.fontBase ≤ a then fontTable.getD (a - Config.fontBase) 0x00#8 else 0x00#8

/-- The byte of memory at address `a`. -/
def memLookup : Memory → Nat → Byte
  | [], a => memInitial a
  | (k, b) :: m, a => if k = a then b else memLookup m a

/-- The list with `(a, b)` in front, unless `b` is what `a` reads as unlisted. -/
def memCons (a : Nat) (b : Byte) (m : Memory) : Memory := if b = memInitial a then m else (a, b) :: m

/-- Memory with byte `b` at address `a`, in canonical form. -/
def memInsert : Memory → Nat → Byte → Memory
  | [], a, b => memCons a b []
  | (k, c) :: m, a, b =>
    if a < k then memCons a b ((k, c) :: m)
    else if a = k then memCons a b m
    else (k, c) :: memInsert m a b

/-- Every listed address is at least `lo` and rising, inside memory, and differs from its unlisted content. -/
def memWfFrom (lo : Nat) : Memory → Bool
  | [] => true
  | (k, c) :: m => decide (lo ≤ k) && decide (k < Config.memSize) && decide (c ≠ memInitial k) && memWfFrom (k + 1) m

/-- Memory is in its one canonical form. -/
def Memory.wf (m : Memory) : Bool := memWfFrom 0 m

/-- The 12-bit address of a 16-bit computed address (20_memory.md R62). -/
def reduceAddr (addr : Word) : Nat := addr.toNat % Config.memSize

/-- `MemRead(addr, 1)` (20_memory.md R63). -/
def State.memRead (s : State) (addr : Word) : Byte := memLookup s.mem (reduceAddr addr)

/-- `MemWrite(addr, 1, b)` (20_memory.md R63). -/
def State.memWrite (s : State) (addr : Word) (b : Byte) : State :=
  { s with mem := memInsert s.mem (reduceAddr addr) b }

/-! ## General registers (10_state.md R21) -/

/-- `V[x]` -/
def State.reg (s : State) (x : Nibble) : Byte := s.v[x.toNat]

/-- `V[x] <- b` -/
def State.setReg (s : State) (x : Nibble) (b : Byte) : State := { s with v := s.v.set x.toNat b }

/-! ## The index register, the program counter, the timers -/

/-- `I <- a` (10_state.md R25) -/
def State.setIndex (s : State) (a : Word) : State := { s with index := a }

/-- `pc <- a` (10_state.md R23) -/
def State.setPc (s : State) (a : Word) : State := { s with pc := a }

/-- `skip`: `pc <- pc +16 2` (40_control_flow.md R140) -/
def State.skip (s : State) : State := s.setPc (s.pc + 2#16)

/-- `DT <- b` (10_state.md R27) -/
def State.setDt (s : State) (b : Byte) : State := { s with dt := b }

/-- `ST <- b` (10_state.md R27) -/
def State.setSt (s : State) (b : Byte) : State := { s with st := b }

/-! ## The fetch (30_encoding.md R91, 20_memory.md R65) -/

/-- The instruction word at an address: two bytes, the first the high one, each address reduced by itself. -/
def State.wordAt (s : State) (addr : Word) : Word := wordOfBytes (s.memRead addr) (s.memRead (addr + 1#16))

/-- The state after the fetch: `pc` is past the word, the word is held in `ir`, and the first `Step` has closed the time
for `Load` (70_reset_and_hazards.md R284). -/
def State.fetched (s : State) : State :=
  { s with pc := s.pc + 2#16, ir := s.wordAt s.pc, loadable := false }

/-! ## Faults (60_exceptions.md) -/

/-- The 2-bit code of a cause (60_exceptions.md R240). -/
def Cause.code : Cause → BitVec 2
  | .noFault => 0
  | .unknownOpcode => 1
  | .stackOverflow => 2
  | .stackUnderflow => 3

/-- Fault entry, for every fault (60_exceptions.md R244): HALT, CAUSE and FAULTWORD are written and nothing else. `pc` is
already past the faulting word. There is no return from a fault (R246): only `Reset` leaves the halted state (R245). -/
def State.raise (s : State) (c : Cause) : State := { s with halt := true, cause := c, faultWord := s.ir }

/-! ## The return-address stack (10_state.md R26) -/

/-- Push a return address; none when 16 are held. -/
def State.push (s : State) (a : Word) : Option State :=
  if h : s.sp.val < 16 then
    some { s with stack := s.stack.set s.sp.val a, sp := ⟨s.sp.val + 1, by omega⟩ }
  else none

/-- Pop a return address, which stays in its slot; none when none is held. -/
def State.pop (s : State) : Option (Word × State) :=
  if h : 0 < s.sp.val then
    some (s.stack[s.sp.val - 1], { s with sp := ⟨s.sp.val - 1, by omega⟩ })
  else none

/-! ## The framebuffer (10_state.md R30) -/

/-- `FB[r][c]` -/
def Framebuffer.pixel (f : Framebuffer) (r : Fin 32) (c : Fin 64) : Bool := f[r.val][c.val]

/-- `FB[r][c] <- b` -/
def Framebuffer.setPixel (f : Framebuffer) (r : Fin 32) (c : Fin 64) (b : Bool) : Framebuffer :=
  f.set r.val (f[r.val].set c.val b)

/-- A framebuffer with every cell 0. -/
def Framebuffer.clear : Framebuffer := Vector.replicate 32 (Vector.replicate 64 false)

/-- `FB <- f` -/
def State.setFb (s : State) (f : Framebuffer) : State := { s with fb := f }

/-! ## The random byte (42_random.md R171) -/

/-- The byte on the port `rnd` at this draw: the environment's next one, or else a free value. -/
def State.randomByte (s : State) : Byte :=
  match s.rnd with
  | b :: _ => b
  | [] => Config.rnd s.draws

/-- The state after a draw: the byte is used up. -/
def State.afterDraw (s : State) : State :=
  match s.rnd with
  | _ :: rest => { s with rnd := rest }
  | [] => { s with draws := s.draws + 1 }

/-! ## The awaiting-key state (10_state.md R32, R33) -/

/-- Enter the wait for register `x`, taking the present latch as the previous sample (46_keypad.md R212). -/
def State.enterWait (s : State) (x : Nibble) : State := { s with wait := true, waitReg := x, keyPrev := s.keys }

/-- End the wait: the key's number goes to the waiting register (46_keypad.md R213). KEYPREV stays as it is, log 16. -/
def State.endWait (s : State) (key : Byte) : State := { s.setReg s.waitReg key with wait := false }

/-- Go on waiting with the present latch as the previous sample (46_keypad.md R213). -/
def State.sampleKeys (s : State) : State := { s with keyPrev := s.keys }

end Sys2Proof.Machine
end

