-- ==== Sys2Proof/Machine/Operands.lean ====
section
/-! DEFINITION. The operand forms (30_encoding.md R97, 44_memory_transfer.md R188): what an operand field stands for. -/

namespace Sys2Proof.Machine

/-- `zext_16(nnn)`: the address field as a 16-bit value. -/
def zextAddr (nnn : Addr) : Word := nnn.setWidth 16

/-- `zext_16(b)`: a byte as a 16-bit value. -/
def zextByte (b : Byte) : Word := b.setWidth 16

/-- `I +16 k`: the address of the k-th byte of a data access, the one addressing mode (44_memory_transfer.md R188). -/
def State.dataAddr (s : State) (k : Nat) : Word := s.index + BitVec.ofNat 16 k

/-- Register number `k` of the range V0 to Vx. -/
def regNumber (k : Nat) : Nibble := BitVec.ofNat 4 k

/-- The key number of a register's value: its low 4 bits (46_keypad.md R214). -/
def keyNumber (b : Byte) : Nibble := b.extractLsb' 0 4

/-- `KEYS[k] = 1` (10_state.md R31). -/
def State.keyDown (s : State) (k : Nibble) : Bool := s.keys.getLsbD k.toNat

/-- The address of the glyph of a digit (43_index_register.md R177): `0x0050 + 5 * b`, the whole byte. -/
def glyphAddr (b : Byte) : Word := BitVec.ofNat 16 (Config.fontBase + Config.glyphBytes * b.toNat)

/-- The three decimal digits of a byte, hundreds first (44_memory_transfer.md R185). -/
def bcdDigits (b : Byte) : List Byte :=
  [BitVec.ofNat 8 (b.toNat / 100), BitVec.ofNat 8 (b.toNat / 10 % 10), BitVec.ofNat 8 (b.toNat % 10)]

/-- The column of a sprite's origin (45_draw.md R197): `V[x] mod 64`. -/
def originColumn (b : Byte) : Nat := b.toNat % Config.fbWidth

/-- The row of a sprite's origin (45_draw.md R197): `V[y] mod 32`. -/
def originRow (b : Byte) : Nat := b.toNat % Config.fbHeight

end Sys2Proof.Machine
end

