-- ==== Sys2Proof/Machine/Flags.lean ====
section
/-! DEFINITION. The flag register and every flag computation (10_state.md R22, 41_register_ops.md R161, R162). -/

namespace Sys2Proof.Machine

/-- VF, general register 15 (R22). -/
def flagReg : Nibble := 0xF#4

/-- A flag as the 8-bit value written to VF: 0x00 or 0x01 (R22). -/
def flagByte (b : Bool) : Byte := if b then 0x01#8 else 0x00#8

/-- `VF <- flag`, all 8 bits (R22). -/
def State.setFlag (s : State) (b : Bool) : State := s.setReg flagReg (flagByte b)

/-- Carry: the unsigned sum exceeds 255 (R156). -/
def carryOf (a b : Byte) : Bool := decide (255 < a.toNat + b.toNat)

/-- Not-borrow of `a - b`: `a >= b` (R157). -/
def notBorrowOf (a b : Byte) : Bool := decide (b.toNat ≤ a.toNat)

/-- The bit a right shift shifts out: bit 0 (R159). -/
def lowBitOf (a : Byte) : Bool := a.getLsbD 0

/-- The bit a left shift shifts out: bit 7 (R160). -/
def highBitOf (a : Byte) : Bool := a.getLsbD 7

/-- The result to `V[x]`, then the flag to VF, in that order (R161): with `x = 0xF` the flag wins. -/
def State.setResultAndFlag (s : State) (x : Nibble) (result : Byte) (flag : Bool) : State :=
  (s.setReg x result).setFlag flag

end Sys2Proof.Machine
end

