-- ==== Sys2Proof/Machine/Draw.lean ====
section
/-! DEFINITION. The sprite draw (45_draw.md): compositing by XOR, collision, clipping at the edges. -/

namespace Sys2Proof.Machine

/-- What a draw carries along: the framebuffer and `hit`, whether a set pixel has been touched. -/
abbrev Canvas := Framebuffer × Bool

/-- XOR a set sprite bit onto row `r`, column `c`; past an edge nothing is drawn and nothing collides (R197). -/
def xorPixel (d : Canvas) (r c : Nat) : Canvas :=
  if h : r < 32 ∧ c < 64 then
    let old := d.1.pixel ⟨r, h.1⟩ ⟨c, h.2⟩
    (d.1.setPixel ⟨r, h.1⟩ ⟨c, h.2⟩ (!old), d.2 || old)
  else d

/-- Sprite column `j` of a row byte: bit 7 is the leftmost pixel (R198). -/
def spriteColumn (b : Byte) (j : Nat) : Bool := b.getLsbD (7 - j)

/-- One row byte at row `r`, from column `x0` (R196). -/
def drawRow (d : Canvas) (b : Byte) (x0 r : Nat) : Canvas :=
  (List.range 8).foldl (fun d j => if spriteColumn b j then xorPixel d r (x0 + j) else d) d

/-- The `n` rows of the sprite at `I`, from row `y0`, column `x0` (R196). -/
def State.drawSprite (s : State) (x0 y0 n : Nat) : Canvas :=
  (List.range n).foldl (fun d k => drawRow d (s.memRead (s.dataAddr k)) x0 (y0 + k)) (s.fb, false)

/-- DRW Vx, Vy, nibble (R196): both coordinates are read before VF, the collision flag, is written. -/
def execDrw (x y n : Nibble) (s : State) : Host.Outcome State Fault Refusal :=
  let d := s.drawSprite (originColumn (s.reg x)) (originRow (s.reg y)) n.toNat
  .next ((s.setFb d.1).setFlag d.2)

end Sys2Proof.Machine
end

