-- ==== Sys2Proof/Machine/IndexRegister.lean ====
section
/-! DEFINITION. Index-register instructions (43_index_register.md). -/

namespace Sys2Proof.Machine

/-- LD I, addr (R175). -/
def execLdI (nnn : Addr) (s : State) : Host.Outcome State Fault Refusal := .next (s.setIndex (zextAddr nnn))

/-- ADD I, Vx (R176): modulo 65536, no flag. -/
def execAddI (x : Nibble) (s : State) : Host.Outcome State Fault Refusal :=
  .next (s.setIndex (s.index + zextByte (s.reg x)))

/-- LD F, Vx (R177). -/
def execLdFont (x : Nibble) (s : State) : Host.Outcome State Fault Refusal :=
  .next (s.setIndex (glyphAddr (s.reg x)))

end Sys2Proof.Machine
end

