-- ==== Sys2Proof/Machine/Keypad.lean ====
section
/-! DEFINITION. Keypad instructions and the waiting step (46_keypad.md). -/

namespace Sys2Proof.Machine

/-- SKP Vx (R210). -/
def execSkp (x : Nibble) (s : State) : Host.Outcome State Fault Refusal :=
  .next (s.skipIf (s.keyDown (keyNumber (s.reg x))))

/-- SKNP Vx (R211). -/
def execSknp (x : Nibble) (s : State) : Host.Outcome State Fault Refusal :=
  .next (s.skipIf (!s.keyDown (keyNumber (s.reg x))))

/-- LD Vx, K (R212): enter the wait. -/
def execLdKey (x : Nibble) (s : State) : Host.Outcome State Fault Refusal := .next (s.enterWait x)

/-- The keys that are down now and were up at the last sample (R213). -/
def State.risen (s : State) : Word := s.keys &&& ~~~s.keyPrev

/-- The least key number whose bit is set. -/
def leastKey (w : Word) : Option Nat := (List.range 16).find? fun k => w.getLsbD k

/-- The waiting step (R213): it fetches nothing; the least risen key ends the wait, else the sample is refreshed. -/
def State.pollKeys (s : State) : State :=
  match leastKey s.risen with
  | some k => s.endWait (BitVec.ofNat 8 k)
  | none => s.sampleKeys

end Sys2Proof.Machine
end

