-- ==== Sys2Proof/Machine/MemoryTransfer.lean ====
section
/-! DEFINITION. BCD and bulk register transfer (44_memory_transfer.md). -/

namespace Sys2Proof.Machine

/-- Store a list of bytes at data offsets `k`, `k + 1`, ... from `I`, ascending. -/
def State.storeFrom (s : State) (k : Nat) : List Byte → State
  | [] => s
  | b :: bs => (s.memWrite (s.dataAddr k) b).storeFrom (k + 1) bs

/-- The values of registers V0 to Vx, in order. -/
def State.regsUpTo (s : State) (x : Nibble) : List Byte :=
  (List.range (x.toNat + 1)).map fun k => s.reg (regNumber k)

/-- Load registers from data offsets of `I`, one for each register number of a list, in order. -/
def State.loadEach (s : State) : List Nat → State
  | [] => s
  | k :: ks => (s.setReg (regNumber k) (s.memRead (s.dataAddr k))).loadEach ks

/-- LD B, Vx (R185). -/
def execLdBcd (x : Nibble) (s : State) : Host.Outcome State Fault Refusal :=
  .next (s.storeFrom 0 (bcdDigits (s.reg x)))

/-- LD [I], Vx (R186): V0 to Vx inclusive; `I` unchanged. -/
def execStoreRegs (x : Nibble) (s : State) : Host.Outcome State Fault Refusal :=
  .next (s.storeFrom 0 (s.regsUpTo x))

/-- LD Vx, [I] (R187): V0 to Vx inclusive; `I` unchanged. -/
def execLoadRegs (x : Nibble) (s : State) : Host.Outcome State Fault Refusal :=
  .next (s.loadEach (List.range (x.toNat + 1)))

end Sys2Proof.Machine
end

