-- ==== Sys2Proof/Machine/Random.lean ====
section
/-! DEFINITION. The random instruction (42_random.md). -/

namespace Sys2Proof.Machine

/-- RND Vx, byte (R170): the port's byte masked by the immediate; no flag. -/
def execRnd (x : Nibble) (kk : Byte) (s : State) : Host.Outcome State Fault Refusal :=
  .next (s.afterDraw.setReg x (s.randomByte &&& kk))

end Sys2Proof.Machine
end

