-- ==== Sys2Proof/Machine/Timers.lean ====
section
/-! DEFINITION. Timer instructions (47_timers.md) and the countdown (60_exceptions.md R254). -/

namespace Sys2Proof.Machine

/-- LD Vx, DT (R225). -/
def execLdRegDt (x : Nibble) (s : State) : Host.Outcome State Fault Refusal := .next (s.setReg x s.dt)

/-- LD DT, Vx (R226). -/
def execLdDtReg (x : Nibble) (s : State) : Host.Outcome State Fault Refusal := .next (s.setDt (s.reg x))

/-- LD ST, Vx (R227). -/
def execLdStReg (x : Nibble) (s : State) : Host.Outcome State Fault Refusal := .next (s.setSt (s.reg x))

/-- A timer one tick later: down by 1, never below zero. -/
def countDown (b : Byte) : Byte := if b = 0x00#8 then b else b - 0x01#8

/-- `Tick` (R254): both timers, and nothing when halted (R245). -/
def State.tick (s : State) : State := if s.halt then s else (s.setDt (countDown s.dt)).setSt (countDown s.st)

end Sys2Proof.Machine
end

