-- ==== Sys2Proof/Machine/Events.lean ====
section
/-! DEFINITION. The events of the agents other than the core (10_state.md R20): the keypad writer and the host. -/

namespace Sys2Proof.Machine

/-- `SetKeys(k)` (10_state.md R31): the latch is replaced, also while halted (60_exceptions.md R245). -/
def State.setKeys (s : State) (k : Word) : State := { s with keys := k }

/-- `Reset` in any state (70_reset_and_hazards.md R280, R281): everything at its reset value but KEYS, which belongs to the
keypad writer. The environment's own future (`events`, `rnd`, `draws`) is not the core's and stays. -/
def State.resetEvent (s : State) : State :=
  { State.reset with keys := s.keys, events := s.events, rnd := s.rnd, draws := s.draws }

/-- An image fits between the load address and the end of memory: at most 3584 bytes (70_reset_and_hazards.md R284). -/
def imageFits (bytes : List Byte) : Bool := decide (bytes.length ≤ Config.memSize - Config.loadAddr)

/-- Store an image byte by byte from an address up. -/
def State.loadImage (s : State) (a : Nat) : List Byte → State
  | [] => s
  | b :: bs => (s.memWrite (BitVec.ofNat 16 a) b).loadImage (a + 1) bs

/-- `Load(bytes)` (70_reset_and_hazards.md R284): verbatim from 0x200 up; refused after the first `Step` and when longer than
3584 bytes. -/
def State.load (s : State) (bytes : List Byte) : Host.Outcome State Fault Refusal :=
  if !s.loadable then .refused .loadAfterFirstStep
  else if !imageFits bytes then .refused (.loadTooLong bytes.length)
  else .next (s.loadImage Config.loadAddr bytes)

/-- The events of one frame as the frame scheduler issues them (60_exceptions.md R258; informative): CYCLES_PER_FRAME, an
open parameter, of `Step`, then a `Tick` if one is due. No rule of the core reads it. -/
def frameEvents (cyclesPerFrame : Nat) (tickDue : Bool) : List Event :=
  List.replicate cyclesPerFrame .step ++ if tickDue then [.tick] else []

end Sys2Proof.Machine
end

