-- ==== Sys2Proof/Machine/Step.lean ====
section
/-! DEFINITION. One event of the machine (10_state.md R20), and the core's `Step` (30_encoding.md R90). -/

namespace Sys2Proof.Machine

/-- The core's `Step` (30_encoding.md R90): nothing when halted, one poll of the keypad when awaiting a key, else fetch,
decode, execute. A word that does not decode raises UnknownOpcode (60_exceptions.md R243). -/
def stepCore (s : State) : Host.Outcome State Fault Refusal :=
  if s.halt then .next s
  else if s.wait then .next s.pollKeys
  else
    match decodeWord (s.wordAt s.pc) with
    | .ok ins => exec ins s.fetched
    | .error _ => .next (s.fetched.raise .unknownOpcode)

/-- The effect of one event. -/
def handle (e : Event) (s : State) : Host.Outcome State Fault Refusal :=
  match e with
  | .step => stepCore s
  | .tick => .next s.tick
  | .setKeys k => .next (s.setKeys k)
  | .reset => .next s.resetEvent
  | .load bytes => s.load bytes

/-- One event: the next of `events`; when there is none, the core's `Step`. Log 1. -/
def step (s : State) : Host.Outcome State Fault Refusal :=
  match s.events with
  | [] => stepCore s
  | e :: rest => handle e { s with events := rest }

/-- `s` with the word `w` of `nbits` bits stored where the next step fetches: at `pc`, high byte first, with HALT and WAIT
off and no other event before the core's `Step`, so that the very next step runs it. Log 22. -/
def State.withFetchWord (s : State) (nbits w : Nat) : State :=
  let word := BitVec.ofNat 16 (w % 2 ^ nbits)
  let t := (s.memWrite s.pc (hiByte word)).memWrite (s.pc + 1#16) (loByte word)
  { t with halt := false, wait := false, events := if s.events.isEmpty then [] else .step :: s.events }

end Sys2Proof.Machine
end

