-- ==== Sys2Proof/Machine/HostView.lean ====
section
/-! DEFINITION. What the host sees (10_state.md R37): the output ports, a view of the state that changes nothing. -/

namespace Sys2Proof.Machine

/-- The output ports. -/
structure HostView where
  /-- `fb`: bit `r * 64 + c` is `FB[r][c]`, as a flat, row-major list of cells (R30). -/
  fb : List Bool
  halted : Bool
  /-- The 2-bit code (60_exceptions.md R240). -/
  cause : BitVec 2
  faultWord : Word
  waiting : Bool
  deriving DecidableEq, Repr

/-- Row after row, each from column 0 (10_state.md R30). -/
def Framebuffer.flat (f : Framebuffer) : List Bool := f.toList.flatMap fun row => row.toList

/-- The values of the output ports in a state. -/
def State.hostView (s : State) : HostView where
  fb := s.fb.flat
  halted := s.halt
  cause := s.cause.code
  faultWord := s.faultWord
  waiting := s.wait

end Sys2Proof.Machine
end

