-- ==== Sys2Proof/WellFormed.lean ====
section
/-! DEFINITION. What is well formed: an instruction, and an instruction word (30_encoding.md R112).

Every bound on an operand (30_encoding.md R97) is the width of its type, so a term of `Instr` cannot break one: there is
no check to make on it. The checks are on WORDS, written here from R112's table of unknown words, family by family,
independently of the decoder. The one other check on input, on a program image, is `imageFits` in Machine/Events.lean. -/

namespace Sys2Proof

/-- The operands of every instruction are in range by their types (R97); no instruction term is ill formed. -/
def Instr.wellFormed : Instr → Bool
  | .cls | .ret | .jp _ | .call _ | .seByte _ _ | .sneByte _ _ | .seReg _ _ | .ldByte _ _ | .addByte _ _
  | .ldReg _ _ | .orReg _ _ | .andReg _ _ | .xorReg _ _ | .addReg _ _ | .subReg _ _ | .shr _ | .subnReg _ _ | .shl _
  | .sneReg _ _ | .ldI _ | .jpV0 _ | .rnd _ _ | .drw _ _ _ | .skp _ | .sknp _ | .ldRegDt _ | .ldKey _ | .ldDtReg _
  | .ldStReg _ | .addI _ | .ldFont _ | .ldBcd _ | .storeRegs _ | .loadRegs _ => true

/-- Family 0: known when `w[3:0]` is 0 or E (R112). -/
def family0Known (w : Nat) : Bool := [0x0, 0xE].contains (w % 16)

/-- Family 8: unknown when `w[3:0]` is 8, 9, A, B, C, D or F (R112). -/
def family8Known (w : Nat) : Bool := !([0x8, 0x9, 0xA, 0xB, 0xC, 0xD, 0xF].contains (w % 16))

/-- Family E: known when `w[7:0]` is 9E or A1 (R112). -/
def familyEKnown (w : Nat) : Bool := [0x9E, 0xA1].contains (w % 256)

/-- Family F: known when `w[7:0]` is one of the nine selectors (R112). -/
def familyFKnown (w : Nat) : Bool :=
  [0x07, 0x0A, 0x15, 0x18, 0x1E, 0x29, 0x33, 0x55, 0x65].contains (w % 256)

/-- A word is a defined instruction word: R112's table, by the top nibble; the other twelve families have no unknown word. -/
def wordDefined (w : Word) : Bool :=
  match w.toNat / 4096 with
  | 0x0 => family0Known w.toNat
  | 0x8 => family8Known w.toNat
  | 0xE => familyEKnown w.toNat
  | 0xF => familyFKnown w.toNat
  | _ => true

end Sys2Proof
end

