-- ==== Sys2Proof/Safety.lean ====
section
/-! DEFINITION. What counts as a safe run, and the terms the statements use. -/

namespace Sys2Proof.Machine

/-- Neither halted nor awaiting a key: a `Step` fetches (30_encoding.md R90). -/
def State.running (s : State) : Bool := !s.halt && !s.wait

/-- No fault has happened: "every claim about a program takes HALT = 0 as part of what it proves" (60_exceptions.md R245). -/
def State.safe (s : State) : Bool := !s.halt

/-- The event the next `step` performs, and the events after it: when `events` is empty, the core's `Step` (log 1). -/
def State.nextEvent (s : State) : Event × List Event :=
  match s.events with
  | [] => (.step, [])
  | e :: rest => (e, rest)

/-- The end of a run by the convention of 70_reset_and_hazards.md R297: running, at a jump to its own address. -/
def State.atEnd (s : State) : Prop :=
  s.running = true ∧ ∃ nnn, decodeWord (s.wordAt s.pc) = .ok (.jp nnn) ∧ zextAddr nnn = s.pc

/-- A function applied to the next state of an outcome. -/
def mapNext (f : State → State) : Host.Outcome State Fault Refusal → Host.Outcome State Fault Refusal
  | .next s => .next (f s)
  | .fault r => .fault r
  | .refused r => .refused r

/-- Why a core is halted (60_exceptions.md R240): the recorded word is an unknown opcode, or a CALL with the stack full, or a
RET with it empty. -/
def State.faultExplained (s : State) : Prop :=
  (s.cause = .unknownOpcode ∧ wordDefined s.faultWord = false) ∨
  (s.cause = .stackOverflow ∧ s.sp = 16 ∧ ∃ nnn, decodeWord s.faultWord = .ok (.call nnn)) ∨
  (s.cause = .stackUnderflow ∧ s.sp = 0 ∧ decodeWord s.faultWord = .ok .ret)

/-- The invariant of the machine. -/
structure State.Inv (s : State) : Prop where
  /-- Memory is in canonical form. -/
  memoryCanonical : s.mem.wf = true
  /-- "CAUSE 0: none, when HALT = 0; FAULTWORD 0" (60_exceptions.md R240). -/
  noFaultRecorded : s.halt = false → s.cause = .noFault ∧ s.faultWord = 0x0000#16
  /-- A halted core is not waiting, and its fault registers tell the truth: the faulting word is still in memory at
  `pc - 2` (60_exceptions.md R244), and it faults as CAUSE says (R240). -/
  faultTold : s.halt = true → s.wait = false ∧ s.faultWord = s.wordAt (s.pc - 2#16) ∧ s.faultExplained
  /-- A waiting core has just executed the `Fx0A` whose `x` is WAITREG (10_state.md R32): it is still at `pc - 2`. -/
  waitTold : s.wait = true → decodeWord (s.wordAt (s.pc - 2#16)) = .ok (.ldKey s.waitReg)
  /-- Until the first `Step` the core is as `Reset` left it but for memory (the loaded program) and KEYS
  (70_reset_and_hazards.md R285). -/
  untouchedUntilStep : s.loadable = true →
    s = { State.reset with mem := s.mem, keys := s.keys, events := s.events, rnd := s.rnd, draws := s.draws }

/-- Whether a set sprite bit lies on row `r`, column `c`: sprite row `k` is the byte at `I + k`, on row `y0 + k`; its bit
`7 - j` is on column `x0 + j` (45_draw.md R195, R198). Rows and columns of the sprite past an edge are on no `r`, `c` of the
framebuffer (R197). -/
def State.spriteBit (s : State) (x0 y0 n r c : Nat) : Bool :=
  decide (y0 ≤ r ∧ r < y0 + n ∧ x0 ≤ c ∧ c < x0 + 8) &&
    (s.memRead (s.index + BitVec.ofNat 16 (r - y0))).getLsbD (7 - (c - x0))

/-- A fetch in `u`, of any address `a`, sees `n` bytes `b 0`, `b 1`, ... stored at `s.index`, `s.index + 1`, ... and at every
other address what a fetch in `s` sees (20_memory.md R72): the high byte is the byte at `a`, the low byte the one after it. -/
def State.fetchSees (u s : State) (n : Nat) (b : Nat → Byte) : Prop :=
  ∀ a : Word,
    (∀ k, k < n → reduceAddr (s.dataAddr k) = reduceAddr a → hiByte (u.wordAt a) = b k) ∧
    (∀ k, k < n → reduceAddr (s.dataAddr k) = reduceAddr (a + 1#16) → loByte (u.wordAt a) = b k) ∧
    ((∀ k, k < n → reduceAddr (s.dataAddr k) ≠ reduceAddr a) → hiByte (u.wordAt a) = hiByte (s.wordAt a)) ∧
    ((∀ k, k < n → reduceAddr (s.dataAddr k) ≠ reduceAddr (a + 1#16)) → loByte (u.wordAt a) = loByte (s.wordAt a))

end Sys2Proof.Machine

namespace Sys2Proof

/-- Every word with these bits under this mask decodes to that instruction. -/
def EncodedBy (mask value : Word) (ins : Word → Instr) : Prop :=
  ∀ w, w &&& mask = value → decodeWord w = .ok (ins w)

/-- The bits of an instruction's word that the decoder examines or reads as operands; the others are the don't-care bits of
30_encoding.md R106. -/
def examinedBits : Instr → Word
  | .cls | .ret => 0xF00F#16
  | .seReg _ _ | .sneReg _ _ => 0xFFF0#16
  | .shr _ | .shl _ => 0xFF0F#16
  | .jp _ | .call _ | .seByte _ _ | .sneByte _ _ | .ldByte _ _ | .addByte _ _ | .ldReg _ _ | .orReg _ _ | .andReg _ _
  | .xorReg _ _ | .addReg _ _ | .subReg _ _ | .subnReg _ _ | .ldI _ | .jpV0 _ | .rnd _ _ | .drw _ _ _ | .skp _ | .sknp _
  | .ldRegDt _ | .ldKey _ | .ldDtReg _ | .ldStReg _ | .addI _ | .ldFont _ | .ldBcd _ | .storeRegs _ | .loadRegs _ =>
    0xFFFF#16

end Sys2Proof
end

