-- ==== Sys2Proof/Certificates/Slice0/Obligations.lean ====
section
/-! DEFINITION. The statements for the provers. Where a clause says `t = { s with v := t.v }`, everything of the state but
the named fields is as before: every other register, memory, the framebuffer, the stack, the timers, the key and fault
registers and the program counter (which the fetch has already moved past the instruction). The fields `events` (log 1),
`rnd` and `draws` (log 3), `ir` (log 4) and `loadable` (log 5) are the model's own: a clause that names one is the model's. -/

open Sys2Proof Sys2Proof.Machine

/-! ## Encoding -/

/-- The words the source document prints (30_encoding.md R110) decode as its scenarios say; 0xFFFF is unknown. -/
def Obligations.PrintedWordsDecode : Prop :=
  decodeWord 0x6005#16 = .ok (.ldByte 0x0#4 0x05#8) ∧
  decodeWord 0xA300#16 = .ok (.ldI 0x300#12) ∧
  decodeWord 0xF055#16 = .ok (.storeRegs 0x0#4) ∧
  decodeWord 0x00E0#16 = .ok .cls ∧
  decodeWord 0x2300#16 = .ok (.call 0x300#12) ∧
  decodeWord 0x00EE#16 = .ok .ret ∧
  decodeWord 0xFFFF#16 = .error (.unknownOpcode 0xFFFF#16)

/-- Every instruction, with every operand, is what its encoded bytes decode to, whatever follows them. -/
def Obligations.DecodeOfEncode : Prop :=
  ∀ (ins : Instr) (rest : List Byte), decode (encode ins ++ rest) = .ok (ins, rest)

/-- The decoder refuses exactly the words of 30_encoding.md R112's table, by the word's own value. Which bits select within
a family is the spec's decision D4 (log 10), the numbers are customary (log 9). -/
def Obligations.UnknownWordsAreTheTables : Prop :=
  ∀ w : Word, (wordDefined w = false → decodeWord w = .error (.unknownOpcode w)) ∧
    (wordDefined w = true → ∃ ins, decodeWord w = .ok ins)

/-- The masks of the opcode map (30_encoding.md R107) decide decoding: a word decodes iff a row covers it, and no two rows
cover one word. The numbers of the map are customary (log 9), its masks the spec's decision D4 (log 10). -/
def Obligations.OpcodeMapDecidesDecoding : Prop :=
  opcodeMap.length = 34 ∧
  ∀ w : Word, ((∃ ins, decodeWord w = .ok ins) ↔ ∃ r ∈ opcodeMap, r.covers w = true) ∧
    ∀ r ∈ opcodeMap, ∀ r' ∈ opcodeMap, r.covers w = true → r'.covers w = true → r = r'

/-- Aliases (30_encoding.md R106): a word and the canonical word of what it decodes to agree on every bit but the don't-care
bits, and a word that differs from a defined one only there decodes to the same instruction. The spec's decision D4
(log 10). -/
def Obligations.AliasesDecodeAlike : Prop :=
  ∀ (w : Word) (ins : Instr), decodeWord w = .ok ins →
    encodeWord ins &&& examinedBits ins = w &&& examinedBits ins ∧
    ∀ w' : Word, w' &&& examinedBits ins = w &&& examinedBits ins → decodeWord w' = .ok ins

/-! ## The step and the fetch -/

/-- The fetched word is two bytes, high byte first, each address reduced to 12 bits by itself (20_memory.md R62, R64, R65).
Byte order and masking are the spec's decisions D1 and D6 (logs 9, 18). -/
def Obligations.FetchIsBigEndianAndWraps : Prop :=
  ∀ (s : State) (a : Word), (s.wordAt a).toNat =
    (memLookup s.mem (a.toNat % 4096)).toNat * 256 + (memLookup s.mem ((a.toNat + 1) % 65536 % 4096)).toNat

/-- A `Step` of a running core runs the instruction its two bytes at `pc` decode to, with `pc` already past it (and the
model's own `ir`, `loadable` and `events` moved on: logs 4, 5, 1). -/
def Obligations.StepRunsTheDecodedInstruction : Prop :=
  ∀ (s : State) (rest : List Event) (ins : Instr), s.nextEvent = (.step, rest) → s.running = true →
    decode [s.memRead s.pc, s.memRead (s.pc + 1#16)] = .ok (ins, []) →
    step s = exec ins { s with
      pc := s.pc + 2#16, ir := wordOfBytes (s.memRead s.pc) (s.memRead (s.pc + 1#16)), loadable := false, events := rest }

/-- A fetched word of R112's table halts the core with UnknownOpcode, `pc` already past it and nothing else changed (`ir`,
`loadable` and `events` are the model's own: logs 4, 5, 1). The halted state is the spec's decision D21 (log 6). -/
def Obligations.UnknownOpcodeHalts : Prop :=
  ∀ (s : State) (rest : List Event), s.nextEvent = (.step, rest) → s.running = true →
    wordDefined (s.wordAt s.pc) = false →
    step s = .next { s with
      pc := s.pc + 2#16, halt := true, cause := .unknownOpcode, faultWord := s.wordAt s.pc,
      ir := s.wordAt s.pc, loadable := false, events := rest }

/-- Every fault is one of the three of 60_exceptions.md R240, and its entry is R244's: HALT, CAUSE, FAULTWORD are written,
`pc` is past the faulting word, and nothing else changes. The spec's decisions D8 and D21 (log 6). -/
def Obligations.FaultEntryIsPrecise : Prop :=
  ∀ s t : State, step s = .next t → s.halt = false → t.halt = true →
    t = { s with
      pc := s.pc + 2#16, halt := true, cause := t.cause, faultWord := s.wordAt s.pc,
      ir := s.wordAt s.pc, loadable := false, events := s.nextEvent.2 } ∧
    s.nextEvent.1 = .step ∧ s.wait = false ∧
    ((t.cause = .unknownOpcode ∧ t.cause.code = 1#2 ∧ wordDefined (s.wordAt s.pc) = false) ∨
     (t.cause = .stackOverflow ∧ t.cause.code = 2#2 ∧ s.sp = 16 ∧ ∃ nnn, decodeWord (s.wordAt s.pc) = .ok (.call nnn)) ∨
     (t.cause = .stackUnderflow ∧ t.cause.code = 3#2 ∧ s.sp = 0 ∧ decodeWord (s.wordAt s.pc) = .ok .ret))

/-- The halted state (60_exceptions.md R245): `Step` and `Tick` change nothing, `SetKeys` only KEYS. The spec's decision D21
(log 6). -/
def Obligations.HaltedCoreIsInert : Prop :=
  ∀ (s : State) (rest : List Event), s.halt = true →
    (s.nextEvent = (.step, rest) → step s = .next { s with events := rest }) ∧
    (s.nextEvent = (.tick, rest) → step s = .next { s with events := rest }) ∧
    (∀ k, s.nextEvent = (.setKeys k, rest) → step s = .next { s with keys := k, events := rest })

/-- Only `Reset` leaves the halted state or clears CAUSE and FAULTWORD (60_exceptions.md R245, 70_reset_and_hazards.md R281).
The spec's decision D21 (log 6). -/
def Obligations.OnlyResetLeavesHalt : Prop :=
  ∀ s t : State, s.halt = true → step s = .next t →
    (t.halt = true ∧ t.cause = s.cause ∧ t.faultWord = s.faultWord) ∨
    (s.nextEvent.1 = .reset ∧ t.halt = false ∧ t.cause = .noFault ∧ t.faultWord = 0x0000#16)

/-! ## Control flow -/

/-- CLS (40_control_flow.md R130): every cell 0, VF and everything else as before, for every word of R130's decoder test. -/
def Obligations.ClsClearsTheFramebuffer : Prop :=
  EncodedBy 0xF00F#16 0x0000#16 (fun _ => .cls) ∧
  ∀ s : State, ∃ t, exec .cls s = .next t ∧ (∀ r c, t.fb.pixel r c = false) ∧ t = { s with fb := t.fb }

/-- RET (40_control_flow.md R131): pops, or with no return address held raises StackUnderflow, which is the spec's decision D8
(log 6). FAULTWORD takes `s.ir`: that the model's own field `ir` holds the fetched word is log 4 (DEDUCED), which holds in a
step (`FaultEntryIsPrecise` says there that FAULTWORD is the word at `pc`) and is no claim about `exec` alone. -/
def Obligations.RetPopsOrUnderflows : Prop :=
  EncodedBy 0xF00F#16 0x000E#16 (fun _ => .ret) ∧
  ∀ s : State,
    (∀ k : Fin 16, s.sp.val = k.val + 1 → exec .ret s = .next { s with sp := k.castSucc, pc := s.stack[k.val] }) ∧
    (s.sp.val = 0 → exec .ret s = .next { s with halt := true, cause := .stackUnderflow, faultWord := s.ir })

/-- CALL (40_control_flow.md R133): pushes `pc`, which is A + 2, and jumps, or with 16 return addresses held raises
StackOverflow and pushes nothing. How SP counts and the fault are the spec's decision D8 (logs 19, 6). FAULTWORD takes `s.ir`:
that the model's own field `ir` holds the fetched word is log 4 (DEDUCED), which holds in a step (`FaultEntryIsPrecise` says
there that FAULTWORD is the word at `pc`) and is no claim about `exec` alone. -/
def Obligations.CallPushesOrOverflows : Prop :=
  EncodedBy 0xF000#16 0x2000#16 (fun w => .call (nnnField w)) ∧
  ∀ (nnn : Addr) (s : State),
    (∀ k : Fin 16, s.sp.val = k.val → ∃ t, exec (.call nnn) s = .next t ∧
      t.pc.toNat = nnn.toNat ∧ t.sp.val = k.val + 1 ∧ t.stack[k.val] = s.pc ∧
      (∀ j : Fin 16, j ≠ k → t.stack[j.val] = s.stack[j.val]) ∧ t = { s with pc := t.pc, sp := t.sp, stack := t.stack }) ∧
    (s.sp.val = 16 → exec (.call nnn) s = .next { s with halt := true, cause := .stackOverflow, faultWord := s.ir })

/-- A call and then a return come back: the program counter after the call, the depth before it (95_test_vectors.md S11). -/
def Obligations.ReturnAfterCallComesBack : Prop :=
  ∀ (nnn : Addr) (s : State), s.sp.val < 16 → ∃ t u, exec (.call nnn) s = .next t ∧ exec .ret t = .next u ∧
    u.pc = s.pc ∧ u.sp = s.sp ∧ u = { s with stack := u.stack } ∧
    ∀ j : Fin 16, j.val < s.sp.val → u.stack[j.val] = s.stack[j.val]

/-- JP (40_control_flow.md R132): only `pc` changes, to the 12-bit target. -/
def Obligations.JumpSetsThePc : Prop :=
  EncodedBy 0xF000#16 0x1000#16 (fun w => .jp (nnnField w)) ∧
  ∀ (nnn : Addr) (s : State), ∃ t, exec (.jp nnn) s = .next t ∧ t.pc.toNat = nnn.toNat ∧ t = { s with pc := t.pc }

/-- JP V0 (40_control_flow.md R138): only `pc` changes, to the full sum with V0. That the register set is `pc` is the spec's
decision D5 (log 13). -/
def Obligations.JumpWithOffsetAddsVZero : Prop :=
  EncodedBy 0xF000#16 0xB000#16 (fun w => .jpV0 (nnnField w)) ∧
  ∀ (nnn : Addr) (s : State),
    ∃ t, exec (.jpV0 nnn) s = .next t ∧ t.pc.toNat = nnn.toNat + (s.reg 0x0#4).toNat ∧ t = { s with pc := t.pc }

/-- SE and SNE with an immediate (40_control_flow.md R134, R135). -/
def Obligations.SkipsOnAnImmediate : Prop :=
  EncodedBy 0xF000#16 0x3000#16 (fun w => .seByte (xField w) (kkField w)) ∧
  EncodedBy 0xF000#16 0x4000#16 (fun w => .sneByte (xField w) (kkField w)) ∧
  ∀ (x : Nibble) (kk : Byte) (s : State),
    exec (.seByte x kk) s = .next { s with pc := if s.reg x = kk then s.pc + 2#16 else s.pc } ∧
    exec (.sneByte x kk) s = .next { s with pc := if s.reg x = kk then s.pc else s.pc + 2#16 }

/-- SE and SNE of two registers (40_control_flow.md R136, R137): a register equals itself, so `x = y` always or never skips. -/
def Obligations.SkipsOnTwoRegisters : Prop :=
  EncodedBy 0xF000#16 0x5000#16 (fun w => .seReg (xField w) (yField w)) ∧
  EncodedBy 0xF000#16 0x9000#16 (fun w => .sneReg (xField w) (yField w)) ∧
  ∀ (x y : Nibble) (s : State),
    exec (.seReg x y) s = .next { s with pc := if s.reg x = s.reg y then s.pc + 2#16 else s.pc } ∧
    exec (.sneReg x y) s = .next { s with pc := if s.reg x = s.reg y then s.pc else s.pc + 2#16 } ∧
    exec (.seReg x x) s = .next { s with pc := s.pc + 2#16 } ∧ exec (.sneReg x x) s = .next s

/-! ## Registers and the ALU -/

/-- LD byte, ADD byte, LD Vy (41_register_ops.md R150 to R152): one register, no flag, `x = 0xF` an ordinary destination. -/
def Obligations.LoadsAndAddImmediate : Prop :=
  EncodedBy 0xF000#16 0x6000#16 (fun w => .ldByte (xField w) (kkField w)) ∧
  EncodedBy 0xF000#16 0x7000#16 (fun w => .addByte (xField w) (kkField w)) ∧
  EncodedBy 0xF00F#16 0x8000#16 (fun w => .ldReg (xField w) (yField w)) ∧
  ∀ (x y : Nibble) (kk : Byte) (s : State),
    (∃ t, exec (.ldByte x kk) s = .next t ∧ t.reg x = kk ∧ (∀ z, z ≠ x → t.reg z = s.reg z) ∧ t = { s with v := t.v }) ∧
    (∃ t, exec (.addByte x kk) s = .next t ∧ (t.reg x).toNat = ((s.reg x).toNat + kk.toNat) % 256 ∧
      (∀ z, z ≠ x → t.reg z = s.reg z) ∧ t = { s with v := t.v }) ∧
    (∃ t, exec (.ldReg x y) s = .next t ∧ t.reg x = s.reg y ∧ (∀ z, z ≠ x → t.reg z = s.reg z) ∧ t = { s with v := t.v })

/-- OR, AND, XOR (41_register_ops.md R153 to R155): bit by bit into Vx; every other register, VF among them, unchanged. That
VF is unchanged is the spec's decision D10 (log 12). -/
def Obligations.BitwiseOperations : Prop :=
  EncodedBy 0xF00F#16 0x8001#16 (fun w => .orReg (xField w) (yField w)) ∧
  EncodedBy 0xF00F#16 0x8002#16 (fun w => .andReg (xField w) (yField w)) ∧
  EncodedBy 0xF00F#16 0x8003#16 (fun w => .xorReg (xField w) (yField w)) ∧
  ∀ (x y : Nibble) (s : State),
    (∃ t, exec (.orReg x y) s = .next t ∧
      (∀ k : Fin 8, (t.reg x).getLsbD k = ((s.reg x).getLsbD k || (s.reg y).getLsbD k)) ∧
      (∀ z, z ≠ x → t.reg z = s.reg z) ∧ t = { s with v := t.v }) ∧
    (∃ t, exec (.andReg x y) s = .next t ∧
      (∀ k : Fin 8, (t.reg x).getLsbD k = ((s.reg x).getLsbD k && (s.reg y).getLsbD k)) ∧
      (∀ z, z ≠ x → t.reg z = s.reg z) ∧ t = { s with v := t.v }) ∧
    (∃ t, exec (.xorReg x y) s = .next t ∧
      (∀ k : Fin 8, (t.reg x).getLsbD k = ((s.reg x).getLsbD k ^^ (s.reg y).getLsbD k)) ∧
      (∀ z, z ≠ x → t.reg z = s.reg z) ∧ t = { s with v := t.v })

/-- ADD Vx, Vy (41_register_ops.md R156): VF is the carry for every `x`; Vx is the wrapped sum unless it is VF. That the flag
is written last is the spec's decision D9 (log 11). -/
def Obligations.AddSetsSumAndCarry : Prop :=
  EncodedBy 0xF00F#16 0x8004#16 (fun w => .addReg (xField w) (yField w)) ∧
  ∀ (x y : Nibble) (s : State), ∃ t, exec (.addReg x y) s = .next t ∧
    (x ≠ 0xF#4 → (t.reg x).toNat = ((s.reg x).toNat + (s.reg y).toNat) % 256) ∧
    (t.reg 0xF#4).toNat = (if (s.reg x).toNat + (s.reg y).toNat > 255 then 1 else 0) ∧
    (∀ z, z ≠ x → z ≠ 0xF#4 → t.reg z = s.reg z) ∧ t = { s with v := t.v }

/-- SUB and SUBN (41_register_ops.md R157, R158): VF is not-borrow for every `x`; Vx is the difference modulo 256, in 0 to
255, unless it is VF. That the flag is written last is the spec's decision D9 (log 11). -/
def Obligations.SubtractsSetDifferenceAndNotBorrow : Prop :=
  EncodedBy 0xF00F#16 0x8005#16 (fun w => .subReg (xField w) (yField w)) ∧
  EncodedBy 0xF00F#16 0x8007#16 (fun w => .subnReg (xField w) (yField w)) ∧
  ∀ (x y : Nibble) (s : State),
    (∃ t, exec (.subReg x y) s = .next t ∧
      (x ≠ 0xF#4 → ((t.reg x).toNat : Int) = ((s.reg x).toNat - (s.reg y).toNat : Int) % 256) ∧
      (t.reg 0xF#4).toNat = (if (s.reg x).toNat ≥ (s.reg y).toNat then 1 else 0) ∧
      (∀ z, z ≠ x → z ≠ 0xF#4 → t.reg z = s.reg z) ∧ t = { s with v := t.v }) ∧
    (∃ t, exec (.subnReg x y) s = .next t ∧
      (x ≠ 0xF#4 → ((t.reg x).toNat : Int) = ((s.reg y).toNat - (s.reg x).toNat : Int) % 256) ∧
      (t.reg 0xF#4).toNat = (if (s.reg y).toNat ≥ (s.reg x).toNat then 1 else 0) ∧
      (∀ z, z ≠ x → z ≠ 0xF#4 → t.reg z = s.reg z) ∧ t = { s with v := t.v })

/-- SHR and SHL (41_register_ops.md R159, R160): one place, zero filled, `y` ignored; VF is the bit shifted out, also when Vx
is VF. That Vx is shifted and that the flag is written last are the spec's decisions D11 and D9 (logs 12, 11). -/
def Obligations.ShiftsByOnePlace : Prop :=
  EncodedBy 0xF00F#16 0x8006#16 (fun w => .shr (xField w)) ∧
  EncodedBy 0xF00F#16 0x800E#16 (fun w => .shl (xField w)) ∧
  ∀ (x : Nibble) (s : State),
    (∃ t, exec (.shr x) s = .next t ∧ (x ≠ 0xF#4 → (t.reg x).toNat = (s.reg x).toNat / 2) ∧
      (t.reg 0xF#4).toNat = (s.reg x).toNat % 2 ∧
      (∀ z, z ≠ x → z ≠ 0xF#4 → t.reg z = s.reg z) ∧ t = { s with v := t.v }) ∧
    (∃ t, exec (.shl x) s = .next t ∧ (x ≠ 0xF#4 → (t.reg x).toNat = (s.reg x).toNat * 2 % 256) ∧
      (t.reg 0xF#4).toNat = (s.reg x).toNat / 128 ∧
      (∀ z, z ≠ x → z ≠ 0xF#4 → t.reg z = s.reg z) ∧ t = { s with v := t.v })

/-! ## The random byte -/

/-- RND (42_random.md R170): the drawn byte masked by `kk`, in every case with the bits cleared in `kk` cleared, and every
byte can be drawn, whatever the rest of the state. The byte not supplied in `rnd` is the free value of log 3; no clause rests
on it. -/
def Obligations.RandomByteIsMasked : Prop :=
  EncodedBy 0xF000#16 0xC000#16 (fun w => .rnd (xField w) (kkField w)) ∧
  ∀ (x : Nibble) (kk : Byte) (s : State),
    (∃ t, exec (.rnd x kk) s = .next t ∧ t.reg x = s.randomByte &&& kk ∧ t.reg x &&& ~~~kk = 0x00#8 ∧
      (∀ z, z ≠ x → t.reg z = s.reg z) ∧ t = { s with v := t.v, rnd := t.rnd, draws := t.draws }) ∧
    ∀ (b : Byte) (later : List Byte), ∃ t, exec (.rnd x kk) { s with rnd := b :: later } = .next t ∧
      t.reg x = b &&& kk ∧ t.rnd = later

/-! ## The index register -/

/-- LD I (43_index_register.md R175): only `I` changes; its upper 4 bits become 0. -/
def Obligations.LoadIndexImmediate : Prop :=
  EncodedBy 0xF000#16 0xA000#16 (fun w => .ldI (nnnField w)) ∧
  ∀ (nnn : Addr) (s : State), ∃ t, exec (.ldI nnn) s = .next t ∧ t.index.toNat = nnn.toNat ∧ t = { s with index := t.index }

/-- ADD I and LD F (43_index_register.md R176, R177): only `I` changes, 16 bits. That no flag is written and that LD F takes
the whole byte are the spec's decisions D12 and D13 (log 13). -/
def Obligations.IndexRegisterArithmetic : Prop :=
  EncodedBy 0xF0FF#16 0xF01E#16 (fun w => .addI (xField w)) ∧
  EncodedBy 0xF0FF#16 0xF029#16 (fun w => .ldFont (xField w)) ∧
  ∀ (x : Nibble) (s : State),
    (∃ t, exec (.addI x) s = .next t ∧ t.index.toNat = (s.index.toNat + (s.reg x).toNat) % 65536 ∧
      t = { s with index := t.index }) ∧
    (∃ t, exec (.ldFont x) s = .next t ∧ t.index.toNat = 0x0050 + 5 * (s.reg x).toNat ∧ t = { s with index := t.index })

/-! ## Memory -/

/-- Memory (20_memory.md R62, R63; masking is the spec's decision D6, log 18): a read of an address gives what the latest write
to the same reduced address wrote, a write changes no other byte, and the canonical form is kept. -/
def Obligations.ReadAfterWrite : Prop :=
  ∀ (s : State) (a a' : Word) (b : Byte), s.mem.wf = true →
    (a.toNat % 4096 = a'.toNat % 4096 → (s.memWrite a b).memRead a' = b) ∧
    (a.toNat % 4096 ≠ a'.toNat % 4096 → (s.memWrite a b).memRead a' = s.memRead a') ∧
    (s.memWrite a b).mem.wf = true ∧ s.memWrite a b = { s with mem := (s.memWrite a b).mem }

/-- Two canonical memories with the same bytes are the same data (the form is the model's own). -/
def Obligations.CanonicalMemoriesAreEqual : Prop :=
  ∀ m m' : Memory, m.wf = true → m'.wf = true → (∀ a, a < 4096 → memLookup m a = memLookup m' a) → m = m'

/-- LD B, Vx (44_memory_transfer.md R185): hundreds, tens and ones at `I`, `I + 1`, `I + 2`; every other byte and everything
else as before. -/
def Obligations.BcdStoresThreeDigits : Prop :=
  EncodedBy 0xF0FF#16 0xF033#16 (fun w => .ldBcd (xField w)) ∧
  ∀ (x : Nibble) (s : State), s.mem.wf = true → ∃ t, exec (.ldBcd x) s = .next t ∧
    (t.memRead (s.dataAddr 0)).toNat = (s.reg x).toNat / 100 ∧
    (t.memRead (s.dataAddr 1)).toNat = (s.reg x).toNat / 10 % 10 ∧
    (t.memRead (s.dataAddr 2)).toNat = (s.reg x).toNat % 10 ∧
    (∀ a : Word, (∀ k, k < 3 → reduceAddr a ≠ reduceAddr (s.dataAddr k)) → t.memRead a = s.memRead a) ∧
    t = { s with mem := t.mem }

/-- LD [I], Vx (44_memory_transfer.md R186): V0 to Vx inclusive to `I`, `I + 1`, ...; every other byte and everything else,
`I` among it, as before (that `I` is unchanged is the spec's decision D14, log 13). -/
def Obligations.StoreRegistersToMemory : Prop :=
  EncodedBy 0xF0FF#16 0xF055#16 (fun w => .storeRegs (xField w)) ∧
  ∀ (x : Nibble) (s : State), s.mem.wf = true → ∃ t, exec (.storeRegs x) s = .next t ∧
    (∀ z : Nibble, z.toNat ≤ x.toNat → t.memRead (s.dataAddr z.toNat) = s.reg z) ∧
    (∀ a : Word, (∀ k, k ≤ x.toNat → reduceAddr a ≠ reduceAddr (s.dataAddr k)) → t.memRead a = s.memRead a) ∧
    t = { s with mem := t.mem }

/-- LD Vx, [I] (44_memory_transfer.md R187): V0 to Vx inclusive from `I`, `I + 1`, ...; the registers above `x` and everything
else, `I` among it, as before (the spec's decision D14, log 13). -/
def Obligations.LoadRegistersFromMemory : Prop :=
  EncodedBy 0xF0FF#16 0xF065#16 (fun w => .loadRegs (xField w)) ∧
  ∀ (x : Nibble) (s : State), ∃ t, exec (.loadRegs x) s = .next t ∧
    (∀ z : Nibble, z.toNat ≤ x.toNat → t.reg z = s.memRead (s.dataAddr z.toNat)) ∧
    (∀ z : Nibble, x.toNat < z.toNat → t.reg z = s.reg z) ∧ t = { s with v := t.v }

/-- Store then load is the identity (44_memory_transfer.md R189): with `I`, the registers and the stored bytes untouched in
between (state `t'`), the load leaves every register as it was and the bytes hold the registers. -/
def Obligations.StoreThenLoadIsIdentity : Prop :=
  ∀ (x : Nibble) (s : State), s.mem.wf = true → ∃ t, exec (.storeRegs x) s = .next t ∧
    ∀ t' : State, t'.index = t.index → t'.v = t.v →
      (∀ k, k ≤ x.toNat → t'.memRead (t.dataAddr k) = t.memRead (t.dataAddr k)) →
      ∃ u, exec (.loadRegs x) t' = .next u ∧ u.v = s.v ∧
        ∀ z : Nibble, z.toNat ≤ x.toNat → memLookup u.mem ((s.index.toNat + z.toNat) % 4096) = s.reg z

/-- The fetch sees stores (20_memory.md R72): after the step of a bulk store (every `x`) or of a BCD store, the fetch of any
address, that of the very next instruction among them, sees the stored bytes wherever one or both of its two addresses were
stored to, and elsewhere what was there before; so does every later fetch while memory is unchanged (state `u`). -/
def Obligations.FetchSeesStores : Prop :=
  ∀ (s : State) (rest : List Event) (x : Nibble), s.nextEvent = (.step, rest) → s.running = true → s.mem.wf = true →
    (decodeWord (s.wordAt s.pc) = .ok (.storeRegs x) → ∃ t, step s = .next t ∧ t.pc = s.pc + 2#16 ∧
      ∀ u : State, u.mem = t.mem → u.fetchSees s (x.toNat + 1) (fun k => s.reg (BitVec.ofNat 4 k))) ∧
    (decodeWord (s.wordAt s.pc) = .ok (.ldBcd x) → ∃ t, step s = .next t ∧ t.pc = s.pc + 2#16 ∧
      ∀ u : State, u.mem = t.mem → u.fetchSees s 3 (fun k => BitVec.ofNat 8 ((s.reg x).toNat / 10 ^ (2 - k) % 10)))

/-! ## Draw -/

/-- DRW (45_draw.md R196 to R198): each pixel is XORed with the sprite bit that lies on it; VF is 1 iff a set bit lies on a
set pixel; nothing else changes. Bit order and `n = 0` are the spec's decision D15, the clipping is fixed by D31 (log 14). -/
def Obligations.DrawXorsTheSprite : Prop :=
  EncodedBy 0xF000#16 0xD000#16 (fun w => .drw (xField w) (yField w) (nField w)) ∧
  ∀ (x y n : Nibble) (s : State), ∃ t, exec (.drw x y n) s = .next t ∧
    (∀ r c, t.fb.pixel r c =
      (s.fb.pixel r c ^^ s.spriteBit ((s.reg x).toNat % 64) ((s.reg y).toNat % 32) n.toNat r c)) ∧
    ((∃ r c, s.fb.pixel r c = true ∧
        s.spriteBit ((s.reg x).toNat % 64) ((s.reg y).toNat % 32) n.toNat r.val c.val = true) → t.reg 0xF#4 = 0x01#8) ∧
    ((¬∃ r c, s.fb.pixel r c = true ∧
        s.spriteBit ((s.reg x).toNat % 64) ((s.reg y).toNat % 32) n.toNat r.val c.val = true) → t.reg 0xF#4 = 0x00#8) ∧
    (∀ z, z ≠ 0xF#4 → t.reg z = s.reg z) ∧ t = { s with v := t.v, fb := t.fb }

/-- Drawing twice (45_draw.md R199): the same sprite at the same origin again restores the framebuffer, and the second VF is
1 exactly when some visible set bit lies on a pixel that was 0 before the first draw. -/
def Obligations.DrawingTwiceRestores : Prop :=
  ∀ (x y n : Nibble) (s : State), ∃ t, exec (.drw x y n) s = .next t ∧
    ∀ t' : State, t'.fb = t.fb → t'.index = s.index → t'.reg x = s.reg x → t'.reg y = s.reg y →
      (∀ k, k < n.toNat → t'.memRead (s.dataAddr k) = s.memRead (s.dataAddr k)) →
      ∃ u, exec (.drw x y n) t' = .next u ∧ u.fb = s.fb ∧
        (u.reg 0xF#4 = 0x01#8 ↔ ∃ r c, s.fb.pixel r c = false ∧
          s.spriteBit ((s.reg x).toNat % 64) ((s.reg y).toNat % 32) n.toNat r.val c.val = true)

/-! ## Keypad -/

/-- SKP and SKNP (46_keypad.md R210, R211, R214): the key is the low 4 bits of Vx (the spec's decision D16, log 15); only `pc`
changes. -/
def Obligations.SkipsOnAKey : Prop :=
  EncodedBy 0xF0FF#16 0xE09E#16 (fun w => .skp (xField w)) ∧
  EncodedBy 0xF0FF#16 0xE0A1#16 (fun w => .sknp (xField w)) ∧
  ∀ (x : Nibble) (s : State),
    exec (.skp x) s = .next { s with pc := if s.keys.getLsbD ((s.reg x).toNat % 16) then s.pc + 2#16 else s.pc } ∧
    exec (.sknp x) s = .next { s with pc := if s.keys.getLsbD ((s.reg x).toNat % 16) then s.pc else s.pc + 2#16 }

/-- LD Vx, K (46_keypad.md R212): WAIT, WAITREG and KEYPREV, and nothing else. The spec's decision D17 (log 17). -/
def Obligations.KeyLoadEntersTheWait : Prop :=
  EncodedBy 0xF0FF#16 0xF00A#16 (fun w => .ldKey (xField w)) ∧
  ∀ (x : Nibble) (s : State), exec (.ldKey x) s = .next { s with wait := true, waitReg := x, keyPrev := s.keys }

/-- The waiting step (46_keypad.md R213): the least key that is down now and was up at the last sample goes to V[WAITREG] and
ends the wait; with none, only KEYPREV changes. Nothing is fetched. The spec's decision D17 (log 17); what KEYPREV is after
the wait ends is not said (log 16). -/
def Obligations.WaitingStepPollsTheKeys : Prop :=
  ∀ (s : State) (rest : List Event), s.nextEvent = (.step, rest) → s.halt = false → s.wait = true →
    (∀ k : Fin 16, s.keys.getLsbD k = true → s.keyPrev.getLsbD k = false →
      (∀ j : Fin 16, j < k → s.keys.getLsbD j = true → s.keyPrev.getLsbD j = true) →
      ∃ t, step s = .next t ∧ (t.reg s.waitReg).toNat = k.val ∧ (∀ z, z ≠ s.waitReg → t.reg z = s.reg z) ∧
        t = { s with v := t.v, wait := false, keyPrev := t.keyPrev, events := rest }) ∧
    ((∀ k : Fin 16, s.keys.getLsbD k = true → s.keyPrev.getLsbD k = true) →
      step s = .next { s with keyPrev := s.keys, events := rest })

/-! ## Timers -/

/-- LD Vx,DT, LD DT,Vx and LD ST,Vx (47_timers.md R225 to R227). -/
def Obligations.TimerInstructions : Prop :=
  EncodedBy 0xF0FF#16 0xF007#16 (fun w => .ldRegDt (xField w)) ∧
  EncodedBy 0xF0FF#16 0xF015#16 (fun w => .ldDtReg (xField w)) ∧
  EncodedBy 0xF0FF#16 0xF018#16 (fun w => .ldStReg (xField w)) ∧
  ∀ (x : Nibble) (s : State),
    (∃ t, exec (.ldRegDt x) s = .next t ∧ t.reg x = s.dt ∧ (∀ z, z ≠ x → t.reg z = s.reg z) ∧ t = { s with v := t.v }) ∧
    exec (.ldDtReg x) s = .next { s with dt := s.reg x } ∧
    exec (.ldStReg x) s = .next { s with st := s.reg x }

/-- `Tick` (60_exceptions.md R254): each timer down by 1 unless 0, also while waiting; nothing else, and nothing when
halted. -/
def Obligations.TickCountsDown : Prop :=
  ∀ (s : State) (rest : List Event), s.nextEvent = (.tick, rest) →
    (s.halt = false → ∃ t, step s = .next t ∧ t.dt.toNat = s.dt.toNat - 1 ∧ t.st.toNat = s.st.toNat - 1 ∧
      t = { s with dt := t.dt, st := t.st, events := rest }) ∧
    (s.halt = true → step s = .next { s with events := rest })

/-- A timer holding v is 0 after exactly v ticks and stays 0 (60_exceptions.md R255). -/
def Obligations.TimersReachZeroAndStay : Prop :=
  ∀ (n : Nat) (s : State) (rest : List Event), s.halt = false → s.events = List.replicate n .tick ++ rest →
    ∃ t, core.run n s = .next t ∧ t.dt.toNat = s.dt.toNat - n ∧ t.st.toNat = s.st.toNat - n ∧
      t = { s with dt := t.dt, st := t.st, events := rest }

/-- DT increases only by `Fx15`, ST only by `Fx18` (60_exceptions.md R255). -/
def Obligations.TimersRiseOnlyByTheirLoads : Prop :=
  ∀ s t : State, step s = .next t →
    (s.dt.toNat < t.dt.toNat → s.nextEvent.1 = .step ∧ s.running = true ∧
      ∃ x, decodeWord (s.wordAt s.pc) = .ok (.ldDtReg x) ∧ t.dt = s.reg x) ∧
    (s.st.toNat < t.st.toNat → s.nextEvent.1 = .step ∧ s.running = true ∧
      ∃ x, decodeWord (s.wordAt s.pc) = .ok (.ldStReg x) ∧ t.st = s.reg x)

/-! ## Reset, load, keys -/

/-- The font table as 20_memory.md R70 prints it: glyph by glyph. Its bytes are customary (log 8). -/
def Obligations.FontTableAfterReset : Prop :=
  (List.range 80).map (memLookup State.reset.mem ∘ (0x050 + ·)) =
    [0xF0, 0x90, 0x90, 0x90, 0xF0] ++ [0x20, 0x60, 0x20, 0x20, 0x70] ++ [0xF0, 0x10, 0xF0, 0x80, 0xF0] ++
    [0xF0, 0x10, 0xF0, 0x10, 0xF0] ++ [0x90, 0x90, 0xF0, 0x10, 0x10] ++ [0xF0, 0x80, 0xF0, 0x10, 0xF0] ++
    [0xF0, 0x80, 0xF0, 0x90, 0xF0] ++ [0xF0, 0x10, 0x20, 0x40, 0x40] ++ [0xF0, 0x90, 0xF0, 0x90, 0xF0] ++
    [0xF0, 0x90, 0xF0, 0x10, 0xF0] ++ [0xF0, 0x90, 0xF0, 0x90, 0x90] ++ [0xE0, 0x90, 0xE0, 0x90, 0xE0] ++
    [0xF0, 0x80, 0x80, 0x80, 0xF0] ++ [0xE0, 0x90, 0x90, 0x90, 0xE0] ++ [0xF0, 0x80, 0xF0, 0x80, 0xF0] ++
    [0xF0, 0x80, 0xF0, 0x80, 0x80]

/-- `Reset` in any state (70_reset_and_hazards.md R280, 10_state.md R38): every register at its reset value, memory back to
its reset content, KEYS not changed. Memory outside the font table, the wait and the fault registers are the spec's decisions
D22, D17, D21 (logs 7, 17, 6); `loadable` is the model's own (log 5). -/
def Obligations.ResetInitialisesEverything : Prop :=
  ∀ (s : State) (rest : List Event), s.nextEvent = (.reset, rest) → ∃ t, step s = .next t ∧
    (∀ z, t.reg z = 0x00#8) ∧ t.index = 0x0000#16 ∧ t.pc = 0x0200#16 ∧ t.sp.val = 0 ∧
    (∀ k : Fin 16, t.stack[k.val] = 0x0000#16) ∧ t.dt = 0x00#8 ∧ t.st = 0x00#8 ∧ (∀ r c, t.fb.pixel r c = false) ∧
    (∀ a, ¬(0x050 ≤ a ∧ a < 0x0A0) → memLookup t.mem a = 0x00#8) ∧
    (∀ a, 0x050 ≤ a ∧ a < 0x0A0 → memLookup t.mem a = fontTable.getD (a - 0x050) 0x00#8) ∧
    t.wait = false ∧ t.waitReg = 0x0#4 ∧ t.keyPrev = 0x0000#16 ∧
    t.halt = false ∧ t.cause.code = 0#2 ∧ t.faultWord = 0x0000#16 ∧
    t.keys = s.keys ∧ t.loadable = true ∧ t.events = rest

/-- `Load` (70_reset_and_hazards.md R284): verbatim from 0x200 up and nothing else; refused when longer than 3584 bytes or
after the first `Step`. The bound and the time are the spec's decision D23 (log 20). -/
def Obligations.LoadCopiesTheImage : Prop :=
  ∀ (s : State) (rest : List Event) (bytes : List Byte), s.nextEvent = (.load bytes, rest) →
    (s.loadable = true → bytes.length ≤ 3584 → s.mem.wf = true → ∃ t, step s = .next t ∧
      (∀ k (h : k < bytes.length), memLookup t.mem (0x200 + k) = bytes[k]) ∧
      (∀ a, a < 0x200 ∨ 0x200 + bytes.length ≤ a → memLookup t.mem a = memLookup s.mem a) ∧
      t = { s with mem := t.mem, events := rest }) ∧
    (s.loadable = true → 3584 < bytes.length → step s = .refused (.loadTooLong bytes.length)) ∧
    (s.loadable = false → step s = .refused .loadAfterFirstStep)

/-- The first `Step` after `Reset` and `Load` runs the word at 0x200 and 0x201 (70_reset_and_hazards.md R285), whatever KEYS
holds. -/
def Obligations.FirstStepRunsTheLoadedProgram : Prop :=
  ∀ (s : State) (hi lo : Byte) (more : List Byte) (ins : Instr) (rest : List Event),
    s.events = .reset :: .load (hi :: lo :: more) :: .step :: rest → more.length ≤ 3582 →
    decode [hi, lo] = .ok (ins, []) →
    ∃ t, core.run 2 s = .next t ∧ t.pc = 0x0200#16 ∧ t.keys = s.keys ∧
      core.run 3 s = exec ins { t with pc := 0x0202#16, ir := wordOfBytes hi lo, loadable := false, events := rest }

/-- `SetKeys` (10_state.md R31): replaces KEYS and nothing else, in any state. -/
def Obligations.SetKeysReplacesTheLatch : Prop :=
  ∀ (s : State) (rest : List Event) (k : Word), s.nextEvent = (.setKeys k, rest) →
    step s = .next { s with keys := k, events := rest }

/-- At the end of a run (70_reset_and_hazards.md R297, a convention, log 23) each `Step` re-executes the jump and changes
nothing of the spec's state. -/
def Obligations.EndOfRunStays : Prop :=
  ∀ (s : State) (rest : List Event), s.nextEvent = (.step, rest) → s.atEnd →
    step s = .next { s with ir := s.wordAt s.pc, loadable := false, events := rest }

/-! ## Whole-machine rules -/

/-- Every instruction runs to a next state from every state, on every operand. -/
def Obligations.EveryInstructionCompletes : Prop :=
  ∀ (ins : Instr) (s : State), ∃ t, exec ins s = .next t

/-- A step goes on from every state unless its event is a `Load` that R284 does not allow. -/
def Obligations.OnlyAnIllegalLoadIsRefused : Prop :=
  ∀ s : State, (∃ t, step s = .next t) ∨
    ∃ bytes rest, s.nextEvent = (.load bytes, rest) ∧ (s.loadable = false ∨ 3584 < bytes.length)

/-- Which instruction writes which store (10_state.md R28, R30, R39): the framebuffer, memory, `I`, the stack, the timers,
the key registers and the fault registers have only the writers named; KEYS has none. -/
def Obligations.EachStoreHasItsOnlyWriters : Prop :=
  ∀ (ins : Instr) (s t : State), exec ins s = .next t →
    (t.fb ≠ s.fb → ins = .cls ∨ ∃ x y n, ins = .drw x y n) ∧
    (t.mem ≠ s.mem → ∃ x, ins = .ldBcd x ∨ ins = .storeRegs x) ∧
    (t.index ≠ s.index → (∃ nnn, ins = .ldI nnn) ∨ ∃ x, ins = .addI x ∨ ins = .ldFont x) ∧
    (t.stack ≠ s.stack → ∃ nnn, ins = .call nnn) ∧
    (t.sp ≠ s.sp → ins = .ret ∨ ∃ nnn, ins = .call nnn) ∧
    (t.dt ≠ s.dt → ∃ x, ins = .ldDtReg x) ∧
    (t.st ≠ s.st → ∃ x, ins = .ldStReg x) ∧
    (t.wait ≠ s.wait ∨ t.waitReg ≠ s.waitReg ∨ t.keyPrev ≠ s.keyPrev → ∃ x, ins = .ldKey x) ∧
    (t.halt ≠ s.halt ∨ t.cause ≠ s.cause ∨ t.faultWord ≠ s.faultWord → ins = .ret ∨ ∃ nnn, ins = .call nnn) ∧
    t.keys = s.keys

/-- Only RND reads the random port (30_encoding.md R90): with any other bytes to come, every other instruction does the
same. -/
def Obligations.OnlyRndReadsTheRandomPort : Prop :=
  ∀ (ins : Instr) (s : State) (q : List Byte) (d : Nat), (∀ x kk, ins ≠ .rnd x kk) →
    exec ins { s with rnd := q, draws := d } = mapNext (fun t => { t with rnd := q, draws := d }) (exec ins s)

/-- Only SKP, SKNP and LD Vx,K read the keypad (10_state.md R28, R39). -/
def Obligations.OnlyKeyInstructionsReadTheKeypad : Prop :=
  ∀ (ins : Instr) (s : State) (k : Word), (∀ x, ins ≠ .skp x ∧ ins ≠ .sknp x ∧ ins ≠ .ldKey x) →
    exec ins { s with keys := k } = mapNext (fun t => { t with keys := k }) (exec ins s)

/-- No instruction reads the sound timer (10_state.md R27, 60_exceptions.md R256): a program cannot observe it. -/
def Obligations.NoInstructionReadsTheSoundTimer : Prop :=
  ∀ (ins : Instr) (s : State) (b : Byte),
    mapNext (fun t => { t with st := 0x00#8 }) (exec ins { s with st := b }) =
      mapNext (fun t => { t with st := 0x00#8 }) (exec ins s)

/-- The host sees the framebuffer flat and row-major, cell `r * 64 + c` (10_state.md R30, R37), and HALT, CAUSE, FAULTWORD,
WAIT. -/
def Obligations.HostSeesTheFramebufferFlat : Prop :=
  ∀ s : State, s.hostView.fb.length = 2048 ∧
    (∀ (r : Fin 32) (c : Fin 64), s.hostView.fb[r.val * 64 + c.val]? = some (s.fb.pixel r c)) ∧
    s.hostView.halted = s.halt ∧ s.hostView.cause = s.cause.code ∧ s.hostView.faultWord = s.faultWord ∧
    s.hostView.waiting = s.wait

/-! ## Invariants -/

/-- The invariant holds after reset. -/
def Obligations.InvariantHoldsAtReset : Prop := State.reset.Inv

/-- Every step keeps the invariant, from every state and on every event. -/
def Obligations.EveryStepKeepsTheInvariant : Prop :=
  ∀ s t : State, s.Inv → step s = .next t → t.Inv
end

