-- ==== Sys2Proof/Laws/Decode.lean ====
section
/-! SUPPORT. The fields of a word as numbers, of a word under a mask, and of an encoded word. -/

namespace Sys2Proof

theorem opField_toNat (w : Word) : (opField w).toNat = w.toNat / 4096 := by
  simp [opField, BitVec.extractLsb'_toNat, Nat.shiftRight_eq_div_pow]; omega

theorem xField_toNat (w : Word) : (xField w).toNat = w.toNat / 256 % 16 := by
  simp [xField, BitVec.extractLsb'_toNat, Nat.shiftRight_eq_div_pow]

theorem yField_toNat (w : Word) : (yField w).toNat = w.toNat / 16 % 16 := by
  simp [yField, BitVec.extractLsb'_toNat, Nat.shiftRight_eq_div_pow]

theorem nField_toNat (w : Word) : (nField w).toNat = w.toNat % 16 := by
  simp [nField, BitVec.extractLsb'_toNat]

theorem kkField_toNat (w : Word) : (kkField w).toNat = w.toNat % 256 := by
  simp [kkField, BitVec.extractLsb'_toNat]

theorem nnnField_toNat (w : Word) : (nnnField w).toNat = w.toNat % 4096 := by
  simp [nnnField, BitVec.extractLsb'_toNat]

theorem nibbles_toNat (a b c d : Nibble) :
    (nibbles a b c d).toNat = a.toNat * 4096 + b.toNat * 256 + c.toNat * 16 + d.toNat := by
  simp only [nibbles, BitVec.toNat_append]
  rw [← Nat.shiftLeft_add_eq_or_of_lt (by omega), ← Nat.shiftLeft_add_eq_or_of_lt (by omega),
    ← Nat.shiftLeft_add_eq_or_of_lt (by omega)]
  simp only [Nat.shiftLeft_eq]; omega

theorem nibbleAddr_toNat (a : Nibble) (nnn : Addr) : (nibbleAddr a nnn).toNat = a.toNat * 4096 + nnn.toNat := by
  simp only [nibbleAddr, BitVec.toNat_append]
  rw [← Nat.shiftLeft_add_eq_or_of_lt (by omega)]
  simp only [Nat.shiftLeft_eq]

theorem nibblesByte_toNat (a b : Nibble) (kk : Byte) :
    (nibblesByte a b kk).toNat = a.toNat * 4096 + b.toNat * 256 + kk.toNat := by
  simp only [nibblesByte, BitVec.toNat_append]
  rw [← Nat.shiftLeft_add_eq_or_of_lt (by omega), ← Nat.shiftLeft_add_eq_or_of_lt (by omega)]
  simp only [Nat.shiftLeft_eq]; omega

theorem wordOfBytes_toNat (hi lo : Byte) : (wordOfBytes hi lo).toNat = hi.toNat * 256 + lo.toNat := by
  simp only [wordOfBytes, BitVec.toNat_append]
  rw [← Nat.shiftLeft_add_eq_or_of_lt (by omega)]
  simp only [Nat.shiftLeft_eq]

/-- The two bytes of a word make it again. -/
theorem wordOfBytes_bytes (w : Word) : wordOfBytes (hiByte w) (loByte w) = w := by
  apply BitVec.eq_of_toNat_eq
  rw [wordOfBytes_toNat]
  simp [hiByte, loByte, BitVec.extractLsb'_toNat, Nat.shiftRight_eq_div_pow]; omega

/-- The high byte of a word of two bytes. -/
@[simp] theorem hiByte_wordOfBytes (hi lo : Byte) : hiByte (wordOfBytes hi lo) = hi := by
  apply BitVec.eq_of_toNat_eq
  simp only [hiByte, BitVec.extractLsb'_toNat, wordOfBytes_toNat, Nat.shiftRight_eq_div_pow]; omega

/-- The low byte of a word of two bytes. -/
@[simp] theorem loByte_wordOfBytes (hi lo : Byte) : loByte (wordOfBytes hi lo) = lo := by
  apply BitVec.eq_of_toNat_eq
  simp only [loByte, BitVec.extractLsb'_toNat, wordOfBytes_toNat, Nat.shiftRight_eq_div_pow]; omega

/-! ## Fields of an encoded word -/

@[simp] theorem opField_nibbles (a b c d : Nibble) : opField (nibbles a b c d) = a :=
  BitVec.eq_of_toNat_eq (by rw [opField_toNat, nibbles_toNat]; omega)

@[simp] theorem xField_nibbles (a b c d : Nibble) : xField (nibbles a b c d) = b :=
  BitVec.eq_of_toNat_eq (by rw [xField_toNat, nibbles_toNat]; omega)

@[simp] theorem yField_nibbles (a b c d : Nibble) : yField (nibbles a b c d) = c :=
  BitVec.eq_of_toNat_eq (by rw [yField_toNat, nibbles_toNat]; omega)

@[simp] theorem nField_nibbles (a b c d : Nibble) : nField (nibbles a b c d) = d :=
  BitVec.eq_of_toNat_eq (by rw [nField_toNat, nibbles_toNat]; omega)

@[simp] theorem opField_nibbleAddr (a : Nibble) (nnn : Addr) : opField (nibbleAddr a nnn) = a :=
  BitVec.eq_of_toNat_eq (by rw [opField_toNat, nibbleAddr_toNat]; omega)

@[simp] theorem nnnField_nibbleAddr (a : Nibble) (nnn : Addr) : nnnField (nibbleAddr a nnn) = nnn :=
  BitVec.eq_of_toNat_eq (by rw [nnnField_toNat, nibbleAddr_toNat]; omega)

@[simp] theorem opField_nibblesByte (a b : Nibble) (kk : Byte) : opField (nibblesByte a b kk) = a :=
  BitVec.eq_of_toNat_eq (by rw [opField_toNat, nibblesByte_toNat]; omega)

@[simp] theorem xField_nibblesByte (a b : Nibble) (kk : Byte) : xField (nibblesByte a b kk) = b :=
  BitVec.eq_of_toNat_eq (by rw [xField_toNat, nibblesByte_toNat]; omega)

@[simp] theorem kkField_nibblesByte (a b : Nibble) (kk : Byte) : kkField (nibblesByte a b kk) = kk :=
  BitVec.eq_of_toNat_eq (by rw [kkField_toNat, nibblesByte_toNat]; omega)

/-! ## Fields of a word under a mask -/

theorem opField_of_mask {w mask value : Word} (h : w &&& mask = value) (hm : opField mask = 0xF#4) :
    opField w = opField value := by
  have e : opField (w &&& mask) = opField w &&& opField mask := BitVec.extractLsb'_and ..
  rw [← h, e, hm]; exact (BitVec.and_allOnes (x := opField w)).symm

theorem nField_of_mask {w mask value : Word} (h : w &&& mask = value) (hm : nField mask = 0xF#4) :
    nField w = nField value := by
  have e : nField (w &&& mask) = nField w &&& nField mask := BitVec.extractLsb'_and ..
  rw [← h, e, hm]; exact (BitVec.and_allOnes (x := nField w)).symm

theorem kkField_of_mask {w mask value : Word} (h : w &&& mask = value) (hm : kkField mask = 0xFF#8) :
    kkField w = kkField value := by
  have e : kkField (w &&& mask) = kkField w &&& kkField mask := BitVec.extractLsb'_and ..
  rw [← h, e, hm]; exact (BitVec.and_allOnes (x := kkField w)).symm

/-! ## The table of unknown words in terms of the fields -/

/-- The sets of 30_encoding.md R112 are sets of nibbles and low bytes. -/
theorem wordDefined_fields (w : Word) : wordDefined w =
    match (opField w).toNat with
    | 0x0 => family0Known (nField w).toNat
    | 0x8 => family8Known (nField w).toNat
    | 0xE => familyEKnown (kkField w).toNat
    | 0xF => familyFKnown (kkField w).toNat
    | _ => true := by
  rw [opField_toNat, nField_toNat, kkField_toNat]
  simp only [family0Known, family8Known, familyEKnown, familyFKnown, Nat.mod_mod]
  rfl

/-- Every 4-bit value is one of the sixteen. -/
theorem nibble_cases (a : Nibble) : a = 0x0#4 ∨ a = 0x1#4 ∨ a = 0x2#4 ∨ a = 0x3#4 ∨ a = 0x4#4 ∨ a = 0x5#4 ∨ a = 0x6#4 ∨
    a = 0x7#4 ∨ a = 0x8#4 ∨ a = 0x9#4 ∨ a = 0xA#4 ∨ a = 0xB#4 ∨ a = 0xC#4 ∨ a = 0xD#4 ∨ a = 0xE#4 ∨ a = 0xF#4 := by
  revert a; decide

end Sys2Proof
end

