-- ==== Sys2Proof/Laws/State.lean ====
section
/-! SUPPORT. What each update of State leaves in each field, so that no proof unfolds a record update. Each theorem is a
conjunction with one equation per field; `simp` uses each equation by itself. -/

namespace Sys2Proof.Machine

@[simp] theorem State.memWrite_fields (s : State) (addr : Word) (b : Byte) :
    (s.memWrite addr b).v = s.v ∧ (s.memWrite addr b).index = s.index ∧ (s.memWrite addr b).pc = s.pc ∧
    (s.memWrite addr b).stack = s.stack ∧ (s.memWrite addr b).sp = s.sp ∧ (s.memWrite addr b).dt = s.dt ∧
    (s.memWrite addr b).st = s.st ∧ (s.memWrite addr b).mem = memInsert s.mem (reduceAddr addr) b ∧
    (s.memWrite addr b).fb = s.fb ∧ (s.memWrite addr b).keys = s.keys ∧ (s.memWrite addr b).wait = s.wait ∧
    (s.memWrite addr b).waitReg = s.waitReg ∧ (s.memWrite addr b).keyPrev = s.keyPrev ∧
    (s.memWrite addr b).halt = s.halt ∧ (s.memWrite addr b).cause = s.cause ∧
    (s.memWrite addr b).faultWord = s.faultWord ∧ (s.memWrite addr b).ir = s.ir ∧
    (s.memWrite addr b).loadable = s.loadable ∧ (s.memWrite addr b).events = s.events ∧
    (s.memWrite addr b).rnd = s.rnd ∧ (s.memWrite addr b).draws = s.draws ∧
    (∀ z, (s.memWrite addr b).reg z = s.reg z) ∧ (∀ j, (s.memWrite addr b).dataAddr j = s.dataAddr j) :=
  ⟨rfl, rfl, rfl, rfl, rfl, rfl, rfl, rfl, rfl, rfl, rfl, rfl, rfl, rfl, rfl, rfl, rfl, rfl, rfl, rfl, rfl, fun _ => rfl, fun _ => rfl⟩

@[simp] theorem State.setReg_fields (s : State) (x : Nibble) (b : Byte) :
    (s.setReg x b).v = s.v.set x.toNat b ∧ (s.setReg x b).index = s.index ∧ (s.setReg x b).pc = s.pc ∧
    (s.setReg x b).stack = s.stack ∧ (s.setReg x b).sp = s.sp ∧ (s.setReg x b).dt = s.dt ∧
    (s.setReg x b).st = s.st ∧ (s.setReg x b).mem = s.mem ∧ (s.setReg x b).fb = s.fb ∧
    (s.setReg x b).keys = s.keys ∧ (s.setReg x b).wait = s.wait ∧ (s.setReg x b).waitReg = s.waitReg ∧
    (s.setReg x b).keyPrev = s.keyPrev ∧ (s.setReg x b).halt = s.halt ∧ (s.setReg x b).cause = s.cause ∧
    (s.setReg x b).faultWord = s.faultWord ∧ (s.setReg x b).ir = s.ir ∧ (s.setReg x b).loadable = s.loadable ∧
    (s.setReg x b).events = s.events ∧ (s.setReg x b).rnd = s.rnd ∧ (s.setReg x b).draws = s.draws ∧
    (∀ a, (s.setReg x b).memRead a = s.memRead a) ∧ (∀ j, (s.setReg x b).dataAddr j = s.dataAddr j) :=
  ⟨rfl, rfl, rfl, rfl, rfl, rfl, rfl, rfl, rfl, rfl, rfl, rfl, rfl, rfl, rfl, rfl, rfl, rfl, rfl, rfl, rfl, fun _ => rfl, fun _ => rfl⟩

@[simp] theorem State.setIndex_fields (s : State) (a : Word) :
    (s.setIndex a).v = s.v ∧ (s.setIndex a).index = a ∧ (s.setIndex a).pc = s.pc ∧ (s.setIndex a).stack = s.stack ∧
    (s.setIndex a).sp = s.sp ∧ (s.setIndex a).dt = s.dt ∧ (s.setIndex a).st = s.st ∧ (s.setIndex a).mem = s.mem ∧
    (s.setIndex a).fb = s.fb ∧ (s.setIndex a).keys = s.keys ∧ (s.setIndex a).wait = s.wait ∧
    (s.setIndex a).waitReg = s.waitReg ∧ (s.setIndex a).keyPrev = s.keyPrev ∧ (s.setIndex a).halt = s.halt ∧
    (s.setIndex a).cause = s.cause ∧ (s.setIndex a).faultWord = s.faultWord ∧ (s.setIndex a).ir = s.ir ∧
    (s.setIndex a).loadable = s.loadable ∧ (s.setIndex a).events = s.events ∧ (s.setIndex a).rnd = s.rnd ∧
    (s.setIndex a).draws = s.draws ∧ (∀ z, (s.setIndex a).reg z = s.reg z) ∧
    (∀ a, (s.setIndex a).memRead a = s.memRead a) :=
  ⟨rfl, rfl, rfl, rfl, rfl, rfl, rfl, rfl, rfl, rfl, rfl, rfl, rfl, rfl, rfl, rfl, rfl, rfl, rfl, rfl, rfl, fun _ => rfl, fun _ => rfl⟩

@[simp] theorem State.setPc_fields (s : State) (a : Word) :
    (s.setPc a).v = s.v ∧ (s.setPc a).index = s.index ∧ (s.setPc a).pc = a ∧ (s.setPc a).stack = s.stack ∧
    (s.setPc a).sp = s.sp ∧ (s.setPc a).dt = s.dt ∧ (s.setPc a).st = s.st ∧ (s.setPc a).mem = s.mem ∧
    (s.setPc a).fb = s.fb ∧ (s.setPc a).keys = s.keys ∧ (s.setPc a).wait = s.wait ∧
    (s.setPc a).waitReg = s.waitReg ∧ (s.setPc a).keyPrev = s.keyPrev ∧ (s.setPc a).halt = s.halt ∧
    (s.setPc a).cause = s.cause ∧ (s.setPc a).faultWord = s.faultWord ∧ (s.setPc a).ir = s.ir ∧
    (s.setPc a).loadable = s.loadable ∧ (s.setPc a).events = s.events ∧ (s.setPc a).rnd = s.rnd ∧
    (s.setPc a).draws = s.draws ∧ (∀ z, (s.setPc a).reg z = s.reg z) ∧ (∀ a, (s.setPc a).memRead a = s.memRead a) ∧
    (∀ j, (s.setPc a).dataAddr j = s.dataAddr j) :=
  ⟨rfl, rfl, rfl, rfl, rfl, rfl, rfl, rfl, rfl, rfl, rfl, rfl, rfl, rfl, rfl, rfl, rfl, rfl, rfl, rfl, rfl, fun _ => rfl, fun _ => rfl, fun _ => rfl⟩

@[simp] theorem State.skip_fields (s : State) :
    (s.skip).v = s.v ∧ (s.skip).index = s.index ∧ (s.skip).pc = s.pc + 2#16 ∧ (s.skip).stack = s.stack ∧
    (s.skip).sp = s.sp ∧ (s.skip).dt = s.dt ∧ (s.skip).st = s.st ∧ (s.skip).mem = s.mem ∧ (s.skip).fb = s.fb ∧
    (s.skip).keys = s.keys ∧ (s.skip).wait = s.wait ∧ (s.skip).waitReg = s.waitReg ∧ (s.skip).keyPrev = s.keyPrev ∧
    (s.skip).halt = s.halt ∧ (s.skip).cause = s.cause ∧ (s.skip).faultWord = s.faultWord ∧ (s.skip).ir = s.ir ∧
    (s.skip).loadable = s.loadable ∧ (s.skip).events = s.events ∧ (s.skip).rnd = s.rnd ∧ (s.skip).draws = s.draws ∧
    (∀ z, (s.skip).reg z = s.reg z) ∧ (∀ a, (s.skip).memRead a = s.memRead a) ∧
    (∀ j, (s.skip).dataAddr j = s.dataAddr j) :=
  ⟨rfl, rfl, rfl, rfl, rfl, rfl, rfl, rfl, rfl, rfl, rfl, rfl, rfl, rfl, rfl, rfl, rfl, rfl, rfl, rfl, rfl, fun _ => rfl, fun _ => rfl, fun _ => rfl⟩

@[simp] theorem State.setDt_fields (s : State) (b : Byte) :
    (s.setDt b).v = s.v ∧ (s.setDt b).index = s.index ∧ (s.setDt b).pc = s.pc ∧ (s.setDt b).stack = s.stack ∧
    (s.setDt b).sp = s.sp ∧ (s.setDt b).dt = b ∧ (s.setDt b).st = s.st ∧ (s.setDt b).mem = s.mem ∧
    (s.setDt b).fb = s.fb ∧ (s.setDt b).keys = s.keys ∧ (s.setDt b).wait = s.wait ∧
    (s.setDt b).waitReg = s.waitReg ∧ (s.setDt b).keyPrev = s.keyPrev ∧ (s.setDt b).halt = s.halt ∧
    (s.setDt b).cause = s.cause ∧ (s.setDt b).faultWord = s.faultWord ∧ (s.setDt b).ir = s.ir ∧
    (s.setDt b).loadable = s.loadable ∧ (s.setDt b).events = s.events ∧ (s.setDt b).rnd = s.rnd ∧
    (s.setDt b).draws = s.draws ∧ (∀ z, (s.setDt b).reg z = s.reg z) ∧ (∀ a, (s.setDt b).memRead a = s.memRead a) ∧
    (∀ j, (s.setDt b).dataAddr j = s.dataAddr j) :=
  ⟨rfl, rfl, rfl, rfl, rfl, rfl, rfl, rfl, rfl, rfl, rfl, rfl, rfl, rfl, rfl, rfl, rfl, rfl, rfl, rfl, rfl, fun _ => rfl, fun _ => rfl, fun _ => rfl⟩

@[simp] theorem State.setSt_fields (s : State) (b : Byte) :
    (s.setSt b).v = s.v ∧ (s.setSt b).index = s.index ∧ (s.setSt b).pc = s.pc ∧ (s.setSt b).stack = s.stack ∧
    (s.setSt b).sp = s.sp ∧ (s.setSt b).dt = s.dt ∧ (s.setSt b).st = b ∧ (s.setSt b).mem = s.mem ∧
    (s.setSt b).fb = s.fb ∧ (s.setSt b).keys = s.keys ∧ (s.setSt b).wait = s.wait ∧
    (s.setSt b).waitReg = s.waitReg ∧ (s.setSt b).keyPrev = s.keyPrev ∧ (s.setSt b).halt = s.halt ∧
    (s.setSt b).cause = s.cause ∧ (s.setSt b).faultWord = s.faultWord ∧ (s.setSt b).ir = s.ir ∧
    (s.setSt b).loadable = s.loadable ∧ (s.setSt b).events = s.events ∧ (s.setSt b).rnd = s.rnd ∧
    (s.setSt b).draws = s.draws ∧ (∀ z, (s.setSt b).reg z = s.reg z) ∧ (∀ a, (s.setSt b).memRead a = s.memRead a) ∧
    (∀ j, (s.setSt b).dataAddr j = s.dataAddr j) :=
  ⟨rfl, rfl, rfl, rfl, rfl, rfl, rfl, rfl, rfl, rfl, rfl, rfl, rfl, rfl, rfl, rfl, rfl, rfl, rfl, rfl, rfl, fun _ => rfl, fun _ => rfl, fun _ => rfl⟩

@[simp] theorem State.fetched_fields (s : State) :
    (s.fetched).v = s.v ∧ (s.fetched).index = s.index ∧ (s.fetched).pc = s.pc + 2#16 ∧
    (s.fetched).stack = s.stack ∧ (s.fetched).sp = s.sp ∧ (s.fetched).dt = s.dt ∧ (s.fetched).st = s.st ∧
    (s.fetched).mem = s.mem ∧ (s.fetched).fb = s.fb ∧ (s.fetched).keys = s.keys ∧ (s.fetched).wait = s.wait ∧
    (s.fetched).waitReg = s.waitReg ∧ (s.fetched).keyPrev = s.keyPrev ∧ (s.fetched).halt = s.halt ∧
    (s.fetched).cause = s.cause ∧ (s.fetched).faultWord = s.faultWord ∧ (s.fetched).ir = s.wordAt s.pc ∧
    (s.fetched).loadable = false ∧ (s.fetched).events = s.events ∧ (s.fetched).rnd = s.rnd ∧
    (s.fetched).draws = s.draws ∧ (∀ z, (s.fetched).reg z = s.reg z) ∧ (∀ a, (s.fetched).memRead a = s.memRead a) ∧
    (∀ j, (s.fetched).dataAddr j = s.dataAddr j) :=
  ⟨rfl, rfl, rfl, rfl, rfl, rfl, rfl, rfl, rfl, rfl, rfl, rfl, rfl, rfl, rfl, rfl, rfl, rfl, rfl, rfl, rfl, fun _ => rfl, fun _ => rfl, fun _ => rfl⟩

@[simp] theorem State.raise_fields (s : State) (c : Cause) :
    (s.raise c).v = s.v ∧ (s.raise c).index = s.index ∧ (s.raise c).pc = s.pc ∧ (s.raise c).stack = s.stack ∧
    (s.raise c).sp = s.sp ∧ (s.raise c).dt = s.dt ∧ (s.raise c).st = s.st ∧ (s.raise c).mem = s.mem ∧
    (s.raise c).fb = s.fb ∧ (s.raise c).keys = s.keys ∧ (s.raise c).wait = s.wait ∧
    (s.raise c).waitReg = s.waitReg ∧ (s.raise c).keyPrev = s.keyPrev ∧ (s.raise c).halt = true ∧
    (s.raise c).cause = c ∧ (s.raise c).faultWord = s.ir ∧ (s.raise c).ir = s.ir ∧
    (s.raise c).loadable = s.loadable ∧ (s.raise c).events = s.events ∧ (s.raise c).rnd = s.rnd ∧
    (s.raise c).draws = s.draws ∧ (∀ z, (s.raise c).reg z = s.reg z) ∧ (∀ a, (s.raise c).memRead a = s.memRead a) ∧
    (∀ j, (s.raise c).dataAddr j = s.dataAddr j) :=
  ⟨rfl, rfl, rfl, rfl, rfl, rfl, rfl, rfl, rfl, rfl, rfl, rfl, rfl, rfl, rfl, rfl, rfl, rfl, rfl, rfl, rfl, fun _ => rfl, fun _ => rfl, fun _ => rfl⟩

@[simp] theorem State.setFb_fields (s : State) (f : Framebuffer) :
    (s.setFb f).v = s.v ∧ (s.setFb f).index = s.index ∧ (s.setFb f).pc = s.pc ∧ (s.setFb f).stack = s.stack ∧
    (s.setFb f).sp = s.sp ∧ (s.setFb f).dt = s.dt ∧ (s.setFb f).st = s.st ∧ (s.setFb f).mem = s.mem ∧
    (s.setFb f).fb = f ∧ (s.setFb f).keys = s.keys ∧ (s.setFb f).wait = s.wait ∧ (s.setFb f).waitReg = s.waitReg ∧
    (s.setFb f).keyPrev = s.keyPrev ∧ (s.setFb f).halt = s.halt ∧ (s.setFb f).cause = s.cause ∧
    (s.setFb f).faultWord = s.faultWord ∧ (s.setFb f).ir = s.ir ∧ (s.setFb f).loadable = s.loadable ∧
    (s.setFb f).events = s.events ∧ (s.setFb f).rnd = s.rnd ∧ (s.setFb f).draws = s.draws ∧
    (∀ z, (s.setFb f).reg z = s.reg z) ∧ (∀ a, (s.setFb f).memRead a = s.memRead a) ∧
    (∀ j, (s.setFb f).dataAddr j = s.dataAddr j) :=
  ⟨rfl, rfl, rfl, rfl, rfl, rfl, rfl, rfl, rfl, rfl, rfl, rfl, rfl, rfl, rfl, rfl, rfl, rfl, rfl, rfl, rfl, fun _ => rfl, fun _ => rfl, fun _ => rfl⟩

@[simp] theorem State.enterWait_fields (s : State) (x : Nibble) :
    (s.enterWait x).v = s.v ∧ (s.enterWait x).index = s.index ∧ (s.enterWait x).pc = s.pc ∧
    (s.enterWait x).stack = s.stack ∧ (s.enterWait x).sp = s.sp ∧ (s.enterWait x).dt = s.dt ∧
    (s.enterWait x).st = s.st ∧ (s.enterWait x).mem = s.mem ∧ (s.enterWait x).fb = s.fb ∧
    (s.enterWait x).keys = s.keys ∧ (s.enterWait x).wait = true ∧ (s.enterWait x).waitReg = x ∧
    (s.enterWait x).keyPrev = s.keys ∧ (s.enterWait x).halt = s.halt ∧ (s.enterWait x).cause = s.cause ∧
    (s.enterWait x).faultWord = s.faultWord ∧ (s.enterWait x).ir = s.ir ∧ (s.enterWait x).loadable = s.loadable ∧
    (s.enterWait x).events = s.events ∧ (s.enterWait x).rnd = s.rnd ∧ (s.enterWait x).draws = s.draws ∧
    (∀ z, (s.enterWait x).reg z = s.reg z) ∧ (∀ a, (s.enterWait x).memRead a = s.memRead a) ∧
    (∀ j, (s.enterWait x).dataAddr j = s.dataAddr j) :=
  ⟨rfl, rfl, rfl, rfl, rfl, rfl, rfl, rfl, rfl, rfl, rfl, rfl, rfl, rfl, rfl, rfl, rfl, rfl, rfl, rfl, rfl, fun _ => rfl, fun _ => rfl, fun _ => rfl⟩

@[simp] theorem State.endWait_fields (s : State) (key : Byte) :
    (s.endWait key).v = s.v.set s.waitReg.toNat key ∧ (s.endWait key).index = s.index ∧ (s.endWait key).pc = s.pc ∧
    (s.endWait key).stack = s.stack ∧ (s.endWait key).sp = s.sp ∧ (s.endWait key).dt = s.dt ∧
    (s.endWait key).st = s.st ∧ (s.endWait key).mem = s.mem ∧ (s.endWait key).fb = s.fb ∧
    (s.endWait key).keys = s.keys ∧ (s.endWait key).wait = false ∧ (s.endWait key).waitReg = s.waitReg ∧
    (s.endWait key).keyPrev = s.keyPrev ∧ (s.endWait key).halt = s.halt ∧ (s.endWait key).cause = s.cause ∧
    (s.endWait key).faultWord = s.faultWord ∧ (s.endWait key).ir = s.ir ∧ (s.endWait key).loadable = s.loadable ∧
    (s.endWait key).events = s.events ∧ (s.endWait key).rnd = s.rnd ∧ (s.endWait key).draws = s.draws ∧
    (∀ a, (s.endWait key).memRead a = s.memRead a) ∧ (∀ j, (s.endWait key).dataAddr j = s.dataAddr j) :=
  ⟨rfl, rfl, rfl, rfl, rfl, rfl, rfl, rfl, rfl, rfl, rfl, rfl, rfl, rfl, rfl, rfl, rfl, rfl, rfl, rfl, rfl, fun _ => rfl, fun _ => rfl⟩

@[simp] theorem State.sampleKeys_fields (s : State) :
    (s.sampleKeys).v = s.v ∧ (s.sampleKeys).index = s.index ∧ (s.sampleKeys).pc = s.pc ∧
    (s.sampleKeys).stack = s.stack ∧ (s.sampleKeys).sp = s.sp ∧ (s.sampleKeys).dt = s.dt ∧
    (s.sampleKeys).st = s.st ∧ (s.sampleKeys).mem = s.mem ∧ (s.sampleKeys).fb = s.fb ∧
    (s.sampleKeys).keys = s.keys ∧ (s.sampleKeys).wait = s.wait ∧ (s.sampleKeys).waitReg = s.waitReg ∧
    (s.sampleKeys).keyPrev = s.keys ∧ (s.sampleKeys).halt = s.halt ∧ (s.sampleKeys).cause = s.cause ∧
    (s.sampleKeys).faultWord = s.faultWord ∧ (s.sampleKeys).ir = s.ir ∧ (s.sampleKeys).loadable = s.loadable ∧
    (s.sampleKeys).events = s.events ∧ (s.sampleKeys).rnd = s.rnd ∧ (s.sampleKeys).draws = s.draws ∧
    (∀ z, (s.sampleKeys).reg z = s.reg z) ∧ (∀ a, (s.sampleKeys).memRead a = s.memRead a) ∧
    (∀ j, (s.sampleKeys).dataAddr j = s.dataAddr j) :=
  ⟨rfl, rfl, rfl, rfl, rfl, rfl, rfl, rfl, rfl, rfl, rfl, rfl, rfl, rfl, rfl, rfl, rfl, rfl, rfl, rfl, rfl, fun _ => rfl, fun _ => rfl, fun _ => rfl⟩

@[simp] theorem State.setKeys_fields (s : State) (k : Word) :
    (s.setKeys k).v = s.v ∧ (s.setKeys k).index = s.index ∧ (s.setKeys k).pc = s.pc ∧
    (s.setKeys k).stack = s.stack ∧ (s.setKeys k).sp = s.sp ∧ (s.setKeys k).dt = s.dt ∧ (s.setKeys k).st = s.st ∧
    (s.setKeys k).mem = s.mem ∧ (s.setKeys k).fb = s.fb ∧ (s.setKeys k).keys = k ∧ (s.setKeys k).wait = s.wait ∧
    (s.setKeys k).waitReg = s.waitReg ∧ (s.setKeys k).keyPrev = s.keyPrev ∧ (s.setKeys k).halt = s.halt ∧
    (s.setKeys k).cause = s.cause ∧ (s.setKeys k).faultWord = s.faultWord ∧ (s.setKeys k).ir = s.ir ∧
    (s.setKeys k).loadable = s.loadable ∧ (s.setKeys k).events = s.events ∧ (s.setKeys k).rnd = s.rnd ∧
    (s.setKeys k).draws = s.draws ∧ (∀ z, (s.setKeys k).reg z = s.reg z) ∧
    (∀ a, (s.setKeys k).memRead a = s.memRead a) ∧ (∀ j, (s.setKeys k).dataAddr j = s.dataAddr j) :=
  ⟨rfl, rfl, rfl, rfl, rfl, rfl, rfl, rfl, rfl, rfl, rfl, rfl, rfl, rfl, rfl, rfl, rfl, rfl, rfl, rfl, rfl, fun _ => rfl, fun _ => rfl, fun _ => rfl⟩

@[simp] theorem State.setFlag_fields (s : State) (b : Bool) :
    (s.setFlag b).v = s.v.set flagReg.toNat (flagByte b) ∧ (s.setFlag b).index = s.index ∧
    (s.setFlag b).pc = s.pc ∧ (s.setFlag b).stack = s.stack ∧ (s.setFlag b).sp = s.sp ∧ (s.setFlag b).dt = s.dt ∧
    (s.setFlag b).st = s.st ∧ (s.setFlag b).mem = s.mem ∧ (s.setFlag b).fb = s.fb ∧ (s.setFlag b).keys = s.keys ∧
    (s.setFlag b).wait = s.wait ∧ (s.setFlag b).waitReg = s.waitReg ∧ (s.setFlag b).keyPrev = s.keyPrev ∧
    (s.setFlag b).halt = s.halt ∧ (s.setFlag b).cause = s.cause ∧ (s.setFlag b).faultWord = s.faultWord ∧
    (s.setFlag b).ir = s.ir ∧ (s.setFlag b).loadable = s.loadable ∧ (s.setFlag b).events = s.events ∧
    (s.setFlag b).rnd = s.rnd ∧ (s.setFlag b).draws = s.draws ∧ (∀ a, (s.setFlag b).memRead a = s.memRead a) ∧
    (∀ j, (s.setFlag b).dataAddr j = s.dataAddr j) :=
  ⟨rfl, rfl, rfl, rfl, rfl, rfl, rfl, rfl, rfl, rfl, rfl, rfl, rfl, rfl, rfl, rfl, rfl, rfl, rfl, rfl, rfl, fun _ => rfl, fun _ => rfl⟩

@[simp] theorem State.setResultAndFlag_fields (s : State) (x : Nibble) (r : Byte) (b : Bool) :
    (s.setResultAndFlag x r b).v = (s.v.set x.toNat r).set flagReg.toNat (flagByte b) ∧
    (s.setResultAndFlag x r b).index = s.index ∧ (s.setResultAndFlag x r b).pc = s.pc ∧
    (s.setResultAndFlag x r b).stack = s.stack ∧ (s.setResultAndFlag x r b).sp = s.sp ∧
    (s.setResultAndFlag x r b).dt = s.dt ∧ (s.setResultAndFlag x r b).st = s.st ∧
    (s.setResultAndFlag x r b).mem = s.mem ∧ (s.setResultAndFlag x r b).fb = s.fb ∧
    (s.setResultAndFlag x r b).keys = s.keys ∧ (s.setResultAndFlag x r b).wait = s.wait ∧
    (s.setResultAndFlag x r b).waitReg = s.waitReg ∧ (s.setResultAndFlag x r b).keyPrev = s.keyPrev ∧
    (s.setResultAndFlag x r b).halt = s.halt ∧ (s.setResultAndFlag x r b).cause = s.cause ∧
    (s.setResultAndFlag x r b).faultWord = s.faultWord ∧ (s.setResultAndFlag x r b).ir = s.ir ∧
    (s.setResultAndFlag x r b).loadable = s.loadable ∧ (s.setResultAndFlag x r b).events = s.events ∧
    (s.setResultAndFlag x r b).rnd = s.rnd ∧ (s.setResultAndFlag x r b).draws = s.draws ∧
    (∀ a, (s.setResultAndFlag x r b).memRead a = s.memRead a) ∧
    (∀ j, (s.setResultAndFlag x r b).dataAddr j = s.dataAddr j) :=
  ⟨rfl, rfl, rfl, rfl, rfl, rfl, rfl, rfl, rfl, rfl, rfl, rfl, rfl, rfl, rfl, rfl, rfl, rfl, rfl, rfl, rfl, fun _ => rfl, fun _ => rfl⟩

@[simp] theorem State.afterDraw_fields (s : State) :
    (s.afterDraw).v = s.v ∧ (s.afterDraw).index = s.index ∧ (s.afterDraw).pc = s.pc ∧
    (s.afterDraw).stack = s.stack ∧ (s.afterDraw).sp = s.sp ∧ (s.afterDraw).dt = s.dt ∧ (s.afterDraw).st = s.st ∧
    (s.afterDraw).mem = s.mem ∧ (s.afterDraw).fb = s.fb ∧ (s.afterDraw).keys = s.keys ∧
    (s.afterDraw).wait = s.wait ∧ (s.afterDraw).waitReg = s.waitReg ∧ (s.afterDraw).keyPrev = s.keyPrev ∧
    (s.afterDraw).halt = s.halt ∧ (s.afterDraw).cause = s.cause ∧ (s.afterDraw).faultWord = s.faultWord ∧
    (s.afterDraw).ir = s.ir ∧ (s.afterDraw).loadable = s.loadable ∧ (s.afterDraw).events = s.events ∧
    (∀ z, (s.afterDraw).reg z = s.reg z) ∧ (∀ a, (s.afterDraw).memRead a = s.memRead a) ∧
    (∀ j, (s.afterDraw).dataAddr j = s.dataAddr j) := by
  unfold State.afterDraw; split <;> simp [State.reg, State.memRead, State.dataAddr]

@[simp] theorem State.skipIf_fields (s : State) (b : Bool) :
    (s.skipIf b).v = s.v ∧ (s.skipIf b).index = s.index ∧ (s.skipIf b).pc = (if b then s.pc + 2#16 else s.pc) ∧
    (s.skipIf b).stack = s.stack ∧ (s.skipIf b).sp = s.sp ∧ (s.skipIf b).dt = s.dt ∧ (s.skipIf b).st = s.st ∧
    (s.skipIf b).mem = s.mem ∧ (s.skipIf b).fb = s.fb ∧ (s.skipIf b).keys = s.keys ∧ (s.skipIf b).wait = s.wait ∧
    (s.skipIf b).waitReg = s.waitReg ∧ (s.skipIf b).keyPrev = s.keyPrev ∧ (s.skipIf b).halt = s.halt ∧
    (s.skipIf b).cause = s.cause ∧ (s.skipIf b).faultWord = s.faultWord ∧ (s.skipIf b).ir = s.ir ∧
    (s.skipIf b).loadable = s.loadable ∧ (s.skipIf b).events = s.events ∧ (s.skipIf b).rnd = s.rnd ∧
    (s.skipIf b).draws = s.draws ∧ (∀ z, (s.skipIf b).reg z = s.reg z) ∧
    (∀ a, (s.skipIf b).memRead a = s.memRead a) ∧ (∀ j, (s.skipIf b).dataAddr j = s.dataAddr j) := by
  unfold State.skipIf; split <;> simp_all

@[simp] theorem State.tick_fields (s : State) :
    (s.tick).v = s.v ∧ (s.tick).index = s.index ∧ (s.tick).pc = s.pc ∧ (s.tick).stack = s.stack ∧
    (s.tick).sp = s.sp ∧ (s.tick).dt = (if s.halt then s.dt else countDown s.dt) ∧
    (s.tick).st = (if s.halt then s.st else countDown s.st) ∧ (s.tick).mem = s.mem ∧ (s.tick).fb = s.fb ∧
    (s.tick).keys = s.keys ∧ (s.tick).wait = s.wait ∧ (s.tick).waitReg = s.waitReg ∧ (s.tick).keyPrev = s.keyPrev ∧
    (s.tick).halt = s.halt ∧ (s.tick).cause = s.cause ∧ (s.tick).faultWord = s.faultWord ∧ (s.tick).ir = s.ir ∧
    (s.tick).loadable = s.loadable ∧ (s.tick).events = s.events ∧ (s.tick).rnd = s.rnd ∧ (s.tick).draws = s.draws ∧
    (∀ z, (s.tick).reg z = s.reg z) ∧ (∀ a, (s.tick).memRead a = s.memRead a) ∧
    (∀ j, (s.tick).dataAddr j = s.dataAddr j) := by
  unfold State.tick; split <;> simp_all

@[simp] theorem State.resetEvent_fields (s : State) :
    (s.resetEvent).v = State.reset.v ∧ (s.resetEvent).index = State.reset.index ∧
    (s.resetEvent).pc = State.reset.pc ∧ (s.resetEvent).stack = State.reset.stack ∧
    (s.resetEvent).sp = State.reset.sp ∧ (s.resetEvent).dt = State.reset.dt ∧ (s.resetEvent).st = State.reset.st ∧
    (s.resetEvent).mem = State.reset.mem ∧ (s.resetEvent).fb = State.reset.fb ∧ (s.resetEvent).keys = s.keys ∧
    (s.resetEvent).wait = State.reset.wait ∧ (s.resetEvent).waitReg = State.reset.waitReg ∧
    (s.resetEvent).keyPrev = State.reset.keyPrev ∧ (s.resetEvent).halt = State.reset.halt ∧
    (s.resetEvent).cause = State.reset.cause ∧ (s.resetEvent).faultWord = State.reset.faultWord ∧
    (s.resetEvent).ir = State.reset.ir ∧ (s.resetEvent).loadable = State.reset.loadable ∧
    (s.resetEvent).events = s.events ∧ (s.resetEvent).rnd = s.rnd ∧ (s.resetEvent).draws = s.draws :=
  ⟨rfl, rfl, rfl, rfl, rfl, rfl, rfl, rfl, rfl, rfl, rfl, rfl, rfl, rfl, rfl, rfl, rfl, rfl, rfl, rfl, rfl⟩

@[simp] theorem State.storeFrom_fields (s : State) (k : Nat) (bs : List Byte) :
    (s.storeFrom k bs).v = s.v ∧ (s.storeFrom k bs).index = s.index ∧ (s.storeFrom k bs).pc = s.pc ∧
    (s.storeFrom k bs).stack = s.stack ∧ (s.storeFrom k bs).sp = s.sp ∧ (s.storeFrom k bs).dt = s.dt ∧
    (s.storeFrom k bs).st = s.st ∧ (s.storeFrom k bs).fb = s.fb ∧ (s.storeFrom k bs).keys = s.keys ∧
    (s.storeFrom k bs).wait = s.wait ∧ (s.storeFrom k bs).waitReg = s.waitReg ∧
    (s.storeFrom k bs).keyPrev = s.keyPrev ∧ (s.storeFrom k bs).halt = s.halt ∧
    (s.storeFrom k bs).cause = s.cause ∧ (s.storeFrom k bs).faultWord = s.faultWord ∧
    (s.storeFrom k bs).ir = s.ir ∧ (s.storeFrom k bs).loadable = s.loadable ∧
    (s.storeFrom k bs).events = s.events ∧ (s.storeFrom k bs).rnd = s.rnd ∧ (s.storeFrom k bs).draws = s.draws ∧
    (∀ z, (s.storeFrom k bs).reg z = s.reg z) ∧ (∀ j, (s.storeFrom k bs).dataAddr j = s.dataAddr j) := by
  induction bs generalizing s k with
  | nil => simp [State.storeFrom]
  | cons b bs ih => simp [State.storeFrom, ih]

@[simp] theorem State.loadEach_fields (s : State) (ks : List Nat) :
    (s.loadEach ks).index = s.index ∧ (s.loadEach ks).pc = s.pc ∧ (s.loadEach ks).stack = s.stack ∧
    (s.loadEach ks).sp = s.sp ∧ (s.loadEach ks).dt = s.dt ∧ (s.loadEach ks).st = s.st ∧
    (s.loadEach ks).mem = s.mem ∧ (s.loadEach ks).fb = s.fb ∧ (s.loadEach ks).keys = s.keys ∧
    (s.loadEach ks).wait = s.wait ∧ (s.loadEach ks).waitReg = s.waitReg ∧ (s.loadEach ks).keyPrev = s.keyPrev ∧
    (s.loadEach ks).halt = s.halt ∧ (s.loadEach ks).cause = s.cause ∧ (s.loadEach ks).faultWord = s.faultWord ∧
    (s.loadEach ks).ir = s.ir ∧ (s.loadEach ks).loadable = s.loadable ∧ (s.loadEach ks).events = s.events ∧
    (s.loadEach ks).rnd = s.rnd ∧ (s.loadEach ks).draws = s.draws ∧
    (∀ a, (s.loadEach ks).memRead a = s.memRead a) ∧ (∀ j, (s.loadEach ks).dataAddr j = s.dataAddr j) := by
  induction ks generalizing s with
  | nil => simp [State.loadEach]
  | cons k ks ih => simp [State.loadEach, ih]

@[simp] theorem State.loadImage_fields (s : State) (a : Nat) (bs : List Byte) :
    (s.loadImage a bs).v = s.v ∧ (s.loadImage a bs).index = s.index ∧ (s.loadImage a bs).pc = s.pc ∧
    (s.loadImage a bs).stack = s.stack ∧ (s.loadImage a bs).sp = s.sp ∧ (s.loadImage a bs).dt = s.dt ∧
    (s.loadImage a bs).st = s.st ∧ (s.loadImage a bs).fb = s.fb ∧ (s.loadImage a bs).keys = s.keys ∧
    (s.loadImage a bs).wait = s.wait ∧ (s.loadImage a bs).waitReg = s.waitReg ∧
    (s.loadImage a bs).keyPrev = s.keyPrev ∧ (s.loadImage a bs).halt = s.halt ∧
    (s.loadImage a bs).cause = s.cause ∧ (s.loadImage a bs).faultWord = s.faultWord ∧
    (s.loadImage a bs).ir = s.ir ∧ (s.loadImage a bs).loadable = s.loadable ∧
    (s.loadImage a bs).events = s.events ∧ (s.loadImage a bs).rnd = s.rnd ∧ (s.loadImage a bs).draws = s.draws ∧
    (∀ z, (s.loadImage a bs).reg z = s.reg z) ∧ (∀ j, (s.loadImage a bs).dataAddr j = s.dataAddr j) := by
  induction bs generalizing s a with
  | nil => simp [State.loadImage]
  | cons b bs ih => simp [State.loadImage, ih]

/-- Two states with the same fields are the same state. -/
theorem State.eq_of_fields {s t : State} (h0 : s.v = t.v) (h1 : s.index = t.index) (h2 : s.pc = t.pc)
    (h3 : s.stack = t.stack) (h4 : s.sp = t.sp) (h5 : s.dt = t.dt) (h6 : s.st = t.st) (h7 : s.mem = t.mem)
    (h8 : s.fb = t.fb) (h9 : s.keys = t.keys) (h10 : s.wait = t.wait) (h11 : s.waitReg = t.waitReg)
    (h12 : s.keyPrev = t.keyPrev) (h13 : s.halt = t.halt) (h14 : s.cause = t.cause) (h15 : s.faultWord = t.faultWord)
    (h16 : s.ir = t.ir) (h17 : s.loadable = t.loadable) (h18 : s.events = t.events) (h19 : s.rnd = t.rnd)
    (h20 : s.draws = t.draws) : s = t := by
  cases s; cases t; simp_all

end Sys2Proof.Machine
end

