-- ==== Sys2Proof/Laws/Memory.lean ====
section
/-! SUPPORT. Memory: reads after writes, the canonical form is kept, canonical memories with the same bytes are equal; and the
spec of each operation that stores to memory. -/

namespace Sys2Proof.Machine

theorem memWfFrom_cons {lo k : Nat} {c : Byte} {m : Memory} :
    memWfFrom lo ((k, c) :: m) = true ↔ lo ≤ k ∧ k < 4096 ∧ c ≠ memInitial k ∧ memWfFrom (k + 1) m = true := by
  simp [memWfFrom, and_assoc]

theorem memWfFrom_mono {lo lo' : Nat} {m : Memory} (h : memWfFrom lo m = true) (hle : lo' ≤ lo) :
    memWfFrom lo' m = true := by
  cases m with
  | nil => rfl
  | cons p m => rw [memWfFrom_cons] at *; exact ⟨by omega, h.2⟩

/-- Below the first listed address memory reads as unlisted. -/
theorem memLookup_below {lo a : Nat} {m : Memory} (h : memWfFrom lo m = true) (ha : a < lo) :
    memLookup m a = memInitial a := by
  induction m generalizing lo with
  | nil => rfl
  | cons p m ih =>
    rw [memWfFrom_cons] at h
    have hne : p.1 ≠ a := by omega
    simp [memLookup, hne, ih h.2.2.2 (by omega)]

/-- `memCons` in front of addresses that are all higher: its canonical form and its reads. -/
theorem memCons_spec {lo a : Nat} {b : Byte} {m : Memory} (h : memWfFrom (a + 1) m = true) (hlo : lo ≤ a) (ha : a < 4096) :
    memWfFrom lo (memCons a b m) = true ∧
    ∀ a', memLookup (memCons a b m) a' = if a' = a then b else memLookup m a' := by
  unfold memCons
  split
  · next hb =>
    refine ⟨memWfFrom_mono h (by omega), fun a' => ?_⟩
    split
    · next e => rw [e, hb]; exact memLookup_below h (by omega)
    · rfl
  · next hb =>
    refine ⟨memWfFrom_cons.2 ⟨hlo, ha, hb, h⟩, fun a' => ?_⟩
    simp [memLookup, eq_comm]

/-- A write keeps the canonical form, gives its byte at its address and changes no other byte. -/
theorem memInsert_spec {lo a : Nat} {b : Byte} {m : Memory} (h : memWfFrom lo m = true) (hlo : lo ≤ a) (ha : a < 4096) :
    memWfFrom lo (memInsert m a b) = true ∧
    ∀ a', memLookup (memInsert m a b) a' = if a' = a then b else memLookup m a' := by
  induction m generalizing lo with
  | nil => exact memCons_spec rfl hlo ha
  | cons p m ih =>
    obtain ⟨h1, h2, h3, h4⟩ := memWfFrom_cons.1 h
    simp only [memInsert]
    split
    · exact memCons_spec (memWfFrom_cons.2 ⟨by omega, h2, h3, h4⟩) hlo ha
    · split
      · next hlt e =>
        refine ⟨(memCons_spec (e ▸ h4) hlo ha).1, fun a' => ?_⟩
        rw [(memCons_spec (lo := lo) (e ▸ h4) hlo ha).2 a', memLookup]
        split
        · rfl
        · next hne => rw [if_neg (by omega)]
      · next hlt hne =>
        obtain ⟨w, r⟩ := ih (lo := p.1 + 1) h4 (by omega)
        refine ⟨memWfFrom_cons.2 ⟨h1, h2, h3, w⟩, fun a' => ?_⟩
        simp only [memLookup, r a']
        split
        · next e => rw [if_neg (by omega)]
        · rfl

theorem reduceAddr_lt (a : Word) : reduceAddr a < 4096 := Nat.mod_lt _ (by decide)

/-- The reset memory is canonical. -/
theorem reset_mem_wf : State.reset.mem.wf = true := rfl

/-- `memWrite` keeps the canonical form. -/
theorem State.memWrite_wf {s : State} (h : s.mem.wf = true) (a : Word) (b : Byte) : (s.memWrite a b).mem.wf = true :=
  (memInsert_spec h (Nat.zero_le _) (reduceAddr_lt a)).1

/-- What memory reads as after `memWrite`. -/
theorem State.memLookup_memWrite {s : State} (h : s.mem.wf = true) (a : Word) (b : Byte) (k : Nat) :
    memLookup (s.memWrite a b).mem k = if k = reduceAddr a then b else memLookup s.mem k :=
  (memInsert_spec h (Nat.zero_le _) (reduceAddr_lt a)).2 k

/-- What `memRead` gives after `memWrite`. -/
theorem State.memRead_memWrite {s : State} (h : s.mem.wf = true) (a a' : Word) (b : Byte) :
    (s.memWrite a b).memRead a' = if reduceAddr a' = reduceAddr a then b else s.memRead a' :=
  State.memLookup_memWrite h a b _

/-- Canonical memories with the same bytes are the same list. -/
theorem memory_ext {lo : Nat} {m m' : Memory} (h : memWfFrom lo m = true) (h' : memWfFrom lo m' = true)
    (e : ∀ a, a < 4096 → memLookup m a = memLookup m' a) : m = m' := by
  induction m generalizing lo m' with
  | nil =>
    cases m' with
    | nil => rfl
    | cons p m' =>
      obtain ⟨-, h2, h3, -⟩ := memWfFrom_cons.1 h'
      exact absurd (e p.1 h2) (by simpa [memLookup] using fun x => h3 x.symm)
  | cons p m ih =>
    obtain ⟨h1, h2, h3, h4⟩ := memWfFrom_cons.1 h
    cases m' with
    | nil => exact absurd (e p.1 h2) (by simpa [memLookup] using h3)
    | cons q m' =>
      obtain ⟨g1, g2, g3, g4⟩ := memWfFrom_cons.1 h'
      have hk : p.1 = q.1 := by
        rcases Nat.lt_trichotomy p.1 q.1 with hlt | heq | hgt
        · have := e p.1 h2
          rw [memLookup_below (memWfFrom_cons.2 ⟨hlt, g2, g3, g4⟩) (Nat.lt_succ_self p.1)] at this
          simp only [memLookup, if_true] at this
          exact absurd this h3
        · exact heq
        · have := e q.1 g2
          rw [memLookup_below (a := q.1) (memWfFrom_cons.2 ⟨hgt, h2, h3, h4⟩) (Nat.lt_succ_self q.1)] at this
          simp only [memLookup, if_true] at this
          exact absurd this.symm g3
      have hc : p.2 = q.2 := by simpa [memLookup, hk] using e p.1 h2
      have ht : m = m' := by
        refine ih h4 (hk ▸ g4) fun a ha => ?_
        by_cases ha' : a = p.1
        · rw [memLookup_below h4 (by omega), memLookup_below g4 (by omega)]
        · have hp : p.1 ≠ a := fun x => ha' x.symm
          have hq : q.1 ≠ a := fun x => ha' (hk.trans x).symm
          simpa [memLookup, hp, hq] using e a ha
      rw [ht, Prod.ext hk hc]

/-! ## Ranges of addresses -/

/-- Two data offsets below 4096 are at different reduced addresses. -/
theorem dataAddr_inj {s : State} {j k : Nat} (hj : j < 4096) (hk : k < 4096)
    (h : reduceAddr (s.dataAddr j) = reduceAddr (s.dataAddr k)) : j = k := by
  simp only [reduceAddr, State.dataAddr, BitVec.toNat_add, BitVec.toNat_ofNat, Config.memSize] at h
  omega

/-- The reduced address of a data offset. -/
theorem reduceAddr_dataAddr (s : State) (k : Nat) : reduceAddr (s.dataAddr k) = (s.index.toNat + k) % 4096 := by
  simp only [reduceAddr, State.dataAddr, BitVec.toNat_add, BitVec.toNat_ofNat, Config.memSize]
  omega

/-- What `storeFrom` does: the canonical form is kept, the j-th byte is at offset `k + j`, every other byte is as before. -/
theorem State.storeFrom_spec {s : State} (h : s.mem.wf = true) (k : Nat) (bs : List Byte) (hk : k + bs.length ≤ 4096) :
    (s.storeFrom k bs).mem.wf = true ∧
    (∀ j (hj : j < bs.length), (s.storeFrom k bs).memRead (s.dataAddr (k + j)) = bs[j]) ∧
    ∀ a, (∀ j, j < bs.length → reduceAddr a ≠ reduceAddr (s.dataAddr (k + j))) →
      (s.storeFrom k bs).memRead a = s.memRead a := by
  induction bs generalizing s k with
  | nil => exact ⟨h, fun j hj => absurd hj (Nat.not_lt_zero j), fun _ _ => rfl⟩
  | cons b bs ih =>
    simp only [List.length_cons] at hk
    obtain ⟨w, r, f⟩ := ih (State.memWrite_wf h (s.dataAddr k) b) (k + 1) (by omega)
    simp only [State.memWrite_fields] at r f
    refine ⟨w, fun j hj => ?_, fun a ha => ?_⟩
    · cases j with
      | zero =>
        simp only [State.storeFrom, Nat.add_zero, List.getElem_cons_zero]
        rw [f _ fun j hj e => absurd (dataAddr_inj (by omega) (by omega) e) (by omega), State.memRead_memWrite h]
        simp
      | succ j =>
        have := r j (by simpa using hj)
        rw [Nat.add_assoc, Nat.add_comm 1 j] at this
        simpa [State.storeFrom] using this
    · simp only [State.storeFrom]
      rw [f a fun j hj => by simpa [Nat.add_assoc, Nat.add_comm 1 j] using ha (j + 1) (by simpa using hj),
        State.memRead_memWrite h, if_neg (by simpa using ha 0 (by simp))]

/-- What `loadImage` does: the canonical form is kept, the j-th byte is at `a + j`, every other byte is as before. -/
theorem State.loadImage_spec {s : State} (h : s.mem.wf = true) (a : Nat) (bs : List Byte) (ha : a + bs.length ≤ 4096) :
    (s.loadImage a bs).mem.wf = true ∧
    (∀ j (hj : j < bs.length), memLookup (s.loadImage a bs).mem (a + j) = bs[j]) ∧
    ∀ k, (k < a ∨ a + bs.length ≤ k) → memLookup (s.loadImage a bs).mem k = memLookup s.mem k := by
  induction bs generalizing s a with
  | nil => exact ⟨h, fun j hj => absurd hj (Nat.not_lt_zero j), fun _ _ => rfl⟩
  | cons b bs ih =>
    simp only [List.length_cons] at ha
    have hr : reduceAddr (BitVec.ofNat 16 a) = a := by
      simp only [reduceAddr, BitVec.toNat_ofNat, Config.memSize]; omega
    obtain ⟨w, r, f⟩ := ih (State.memWrite_wf h (BitVec.ofNat 16 a) b) (a + 1) (by omega)
    refine ⟨w, fun j hj => ?_, fun k hk => ?_⟩
    · cases j with
      | zero =>
        simp only [State.loadImage, Nat.add_zero, List.getElem_cons_zero]
        rw [f a (by omega), State.memLookup_memWrite h, hr, if_pos rfl]
      | succ j =>
        have := r j (by simpa using hj)
        rw [Nat.add_assoc, Nat.add_comm 1 j] at this
        simpa [State.loadImage] using this
    · simp only [List.length_cons] at hk
      simp only [State.loadImage]
      rw [f k (by omega), State.memLookup_memWrite h, hr, if_neg (by omega)]

/-- What a byte of memory right after reset is, outside the font table. -/
theorem memInitial_outside {a : Nat} (h : ¬(0x050 ≤ a ∧ a < 0x0A0)) : memInitial a = 0x00#8 := by
  unfold memInitial
  split
  · rw [List.getD_eq_getElem?_getD, List.getElem?_eq_none (by simp [fontTable, fontGlyphs0to7, fontGlyphs8toF]; simp at *; omega)]
    rfl
  · rfl

end Sys2Proof.Machine
end

