-- ==== Sys2Proof/Laws/Registers.lean ====
section
/-! SUPPORT. The register file: reads after writes, and the spec of each operation that writes it. -/

namespace Sys2Proof.Machine

/-- What `reg` gives after `setReg`. -/
@[simp] theorem State.reg_setReg (s : State) (x z : Nibble) (b : Byte) :
    (s.setReg x b).reg z = if z = x then b else s.reg z := by
  simp only [State.reg, State.setReg, Vector.getElem_set, BitVec.toNat_inj, eq_comm]

/-- Register files with the same registers are the same. -/
theorem regs_ext {s t : State} (h : ∀ z, s.reg z = t.reg z) : s.v = t.v :=
  Vector.ext fun k hk => by
    have e : (BitVec.ofNat 4 k).toNat = k := by simp [BitVec.toNat_ofNat]; omega
    simpa only [State.reg, e] using h (BitVec.ofNat 4 k)

/-- `reg` reads the register file only. -/
theorem State.reg_congr {s t : State} (h : s.v = t.v) (z : Nibble) : s.reg z = t.reg z := by simp only [State.reg, h]

/-- What `reg` gives after `setFlag`. -/
@[simp] theorem State.reg_setFlag (s : State) (z : Nibble) (b : Bool) :
    (s.setFlag b).reg z = if z = 0xF#4 then flagByte b else s.reg z := State.reg_setReg s _ z _

/-- What `reg` gives after a result and a flag: the flag wins in VF (41_register_ops.md R161). -/
@[simp] theorem State.reg_setResultAndFlag (s : State) (x z : Nibble) (r : Byte) (b : Bool) :
    (s.setResultAndFlag x r b).reg z = if z = 0xF#4 then flagByte b else if z = x then r else s.reg z := by
  simp [State.setResultAndFlag]

/-- Ending a wait writes the waiting register. -/
@[simp] theorem State.reg_endWait (s : State) (z : Nibble) (key : Byte) :
    (s.endWait key).reg z = if z = s.waitReg then key else s.reg z := State.reg_setReg s _ z _

theorem flagByte_toNat (b : Bool) : (flagByte b).toNat = if b then 1 else 0 := by cases b <;> rfl

/-- Register numbers below 16 are distinct. -/
theorem regNumber_toNat {k : Nat} (h : k < 16) : (regNumber k).toNat = k := by
  simp [regNumber, BitVec.toNat_ofNat]; omega

theorem regNumber_of_toNat (z : Nibble) : regNumber z.toNat = z := by simp [regNumber]

/-- What `loadEach` does to a register: loaded if its number is listed. -/
theorem State.reg_loadEach (s : State) (ks : List Nat) (hk : ∀ k ∈ ks, k < 16) (z : Nibble) :
    (s.loadEach ks).reg z = if z.toNat ∈ ks then s.memRead (s.dataAddr z.toNat) else s.reg z := by
  induction ks generalizing s with
  | nil => simp [State.loadEach]
  | cons k ks ih =>
    simp only [List.mem_cons, forall_eq_or_imp] at hk
    have e : z = regNumber k ↔ z.toNat = k := by rw [← BitVec.toNat_inj, regNumber_toNat hk.1]
    simp only [State.loadEach, ih _ hk.2, State.setReg_fields, State.reg_setReg, e, List.mem_cons]
    by_cases h1 : z.toNat ∈ ks <;> by_cases h2 : z.toNat = k <;> simp [h1, h2]

/-- The j-th of the values of V0 to Vx. -/
theorem State.regsUpTo_getElem (s : State) (x : Nibble) (j : Nat) (h : j < (s.regsUpTo x).length) :
    (s.regsUpTo x)[j] = s.reg (regNumber j) := by simp [State.regsUpTo]

theorem State.regsUpTo_length (s : State) (x : Nibble) : (s.regsUpTo x).length = x.toNat + 1 := by
  simp [State.regsUpTo]

/-! ## The stack -/

/-- What `push` does. -/
theorem State.push_cases (s : State) (a : Word) :
    (∃ h : s.sp.val < 16, s.push a = some { s with stack := s.stack.set s.sp.val a, sp := ⟨s.sp.val + 1, by omega⟩ }) ∨
    (s.sp.val = 16 ∧ s.push a = none) := by
  unfold State.push
  split
  · next h => exact .inl ⟨h, rfl⟩
  · exact .inr ⟨by omega, rfl⟩

/-- What `pop` does. -/
theorem State.pop_cases (s : State) :
    (∃ h : 0 < s.sp.val, s.pop = some (s.stack[s.sp.val - 1], { s with sp := ⟨s.sp.val - 1, by omega⟩ })) ∨
    (s.sp.val = 0 ∧ s.pop = none) := by
  unfold State.pop
  split
  · next h => exact .inl ⟨h, rfl⟩
  · exact .inr ⟨by omega, rfl⟩

/-! ## The random byte -/

/-- What a draw does: it takes the environment's next byte, or else the next free value. -/
theorem State.draw_cases (s : State) :
    (∃ b later, s.rnd = b :: later ∧ s.randomByte = b ∧ s.afterDraw = { s with rnd := later }) ∨
    (s.rnd = [] ∧ s.randomByte = Config.rnd s.draws ∧ s.afterDraw = { s with draws := s.draws + 1 }) := by
  unfold State.randomByte State.afterDraw
  cases h : s.rnd with
  | nil => exact .inr ⟨rfl, rfl, rfl⟩
  | cons b later => exact .inl ⟨b, later, rfl, rfl, rfl⟩

/-! ## Keys -/

/-- `leastKey` finds the least set bit. -/
theorem leastKey_some {w : Word} {k : Nat} :
    leastKey w = some k ↔ k < 16 ∧ w.getLsbD k = true ∧ ∀ j, j < k → w.getLsbD j = false := by
  simp only [leastKey, List.find?_range_eq_some, List.mem_range, Bool.not_eq_true']
  tauto

theorem leastKey_none {w : Word} : leastKey w = none ↔ ∀ k, k < 16 → w.getLsbD k = false := by
  simp [leastKey]

theorem State.risen_getLsbD (s : State) {k : Nat} (h : k < 16) :
    s.risen.getLsbD k = (s.keys.getLsbD k && !s.keyPrev.getLsbD k) := by
  simp [State.risen, h]

/-- What a waiting step does (46_keypad.md R213). -/
theorem State.pollKeys_cases (s : State) :
    (∃ k, leastKey s.risen = some k ∧ s.pollKeys = s.endWait (BitVec.ofNat 8 k)) ∨
    (leastKey s.risen = none ∧ s.pollKeys = s.sampleKeys) := by
  unfold State.pollKeys
  cases h : leastKey s.risen with
  | some k => exact .inl ⟨k, rfl, rfl⟩
  | none => exact .inr ⟨rfl, rfl⟩

end Sys2Proof.Machine
end

