-- ==== Sys2Proof/Laws/Draw.lean ====
section
/-! SUPPORT. What a draw does to the framebuffer, pixel by pixel, and to the collision flag: one spec for a pixel, a row and a
sprite, composed because no pixel is touched twice. -/

namespace Sys2Proof.Machine

/-- What `pixel` gives after `setPixel`. -/
@[simp] theorem Framebuffer.pixel_setPixel (f : Framebuffer) (r r' : Fin 32) (c c' : Fin 64) (b : Bool) :
    (f.setPixel r c b).pixel r' c' = if r' = r ∧ c' = c then b else f.pixel r' c' := by
  simp only [Framebuffer.pixel, Framebuffer.setPixel, Vector.getElem_set]
  by_cases hr : r = r'
  · subst hr
    by_cases hc : c = c'
    · simp [hc]
    · have := Fin.val_ne_of_ne hc
      have h2 : c' ≠ c := fun e => hc e.symm
      simp [this, h2]
  · have := Fin.val_ne_of_ne hr
    have h2 : r' ≠ r := fun e => hr e.symm
    simp [this, h2]

@[simp] theorem Framebuffer.pixel_clear (r : Fin 32) (c : Fin 64) : Framebuffer.clear.pixel r c = false := by
  simp [Framebuffer.pixel, Framebuffer.clear]

/-- Framebuffers with the same pixels are the same. -/
theorem framebuffer_ext {f g : Framebuffer} (h : ∀ r c, f.pixel r c = g.pixel r c) : f = g :=
  Vector.ext fun r hr => Vector.ext fun c hc => h ⟨r, hr⟩ ⟨c, hc⟩

/-- `d` is `d0` with the pixels of `bits` XORed on, and the flag raised if one of them was set. -/
def Drawn (bits : Fin 32 → Fin 64 → Bool) (d0 d : Canvas) : Prop :=
  (∀ r c, d.1.pixel r c = (d0.1.pixel r c ^^ bits r c)) ∧
  (d.2 = true ↔ d0.2 = true ∨ ∃ r c, d0.1.pixel r c = true ∧ bits r c = true)

theorem Drawn.nothing {d : Canvas} {bits : Fin 32 → Fin 64 → Bool} (h : ∀ r c, bits r c = false) : Drawn bits d d := by
  simp [Drawn, h]

/-- Two draws on disjoint pixels are one draw of both. -/
theorem Drawn.trans {d0 d1 d2 : Canvas} {a b bits : Fin 32 → Fin 64 → Bool} (h1 : Drawn a d0 d1) (h2 : Drawn b d1 d2)
    (hd : ∀ r c, a r c = true → b r c = false) (hb : ∀ r c, bits r c = (a r c || b r c)) : Drawn bits d0 d2 := by
  refine ⟨fun r c => ?_, ?_⟩
  · rw [h2.1, h1.1, hb]
    have := hd r c
    cases ha : a r c <;> cases hbb : b r c <;> simp_all
  · rw [h2.2, h1.2, or_assoc]
    refine or_congr_right ⟨?_, ?_⟩
    · rintro (⟨r, c, hp, ha⟩ | ⟨r, c, hp, hbb⟩)
      · exact ⟨r, c, hp, by simp [hb, ha]⟩
      · have ha : a r c = false := by
          cases ha : a r c with
          | false => rfl
          | true => rw [hd r c ha] at hbb; cases hbb
        exact ⟨r, c, by simpa [h1.1, ha] using hp, by simp [hb, hbb]⟩
    · rintro ⟨r, c, hp, hbits⟩
      cases ha : a r c with
      | true => exact .inl ⟨r, c, hp, ha⟩
      | false => exact .inr ⟨r, c, by simpa [h1.1, ha] using hp, by simpa [hb, ha] using hbits⟩

/-- One pixel; past an edge, nothing. -/
theorem xorPixel_drawn (d : Canvas) (r c : Nat) :
    Drawn (fun r' c' => decide (r'.val = r ∧ c'.val = c)) d (xorPixel d r c) := by
  unfold xorPixel
  split
  · next h =>
    have key : ∀ (r' : Fin 32) (c' : Fin 64), (r' = ⟨r, h.1⟩ ∧ c' = ⟨c, h.2⟩) ↔ (r'.val = r ∧ c'.val = c) := by
      intro r' c'; simp [Fin.ext_iff]
    refine ⟨fun r' c' => ?_, ?_⟩
    · simp only [Framebuffer.pixel_setPixel, key]
      split
      · next e =>
        obtain ⟨rfl, rfl⟩ := e
        simp
      · next e => simp [e]
    · simp only [Bool.or_eq_true, decide_eq_true_eq]
      refine or_congr_right ⟨fun hp => ⟨⟨r, h.1⟩, ⟨c, h.2⟩, hp, rfl, rfl⟩, ?_⟩
      rintro ⟨r', c', hp, rfl, rfl⟩
      exact hp
  · next h =>
    refine Drawn.nothing fun r' c' => ?_
    simp only [decide_eq_false_iff_not]
    omega

/-- The first `m` sprite columns of a row. -/
theorem drawColumns_drawn (b : Byte) (x0 r : Nat) (d : Canvas) (m : Nat) :
    Drawn (fun r' c' => decide (r'.val = r ∧ x0 ≤ c'.val ∧ c'.val < x0 + m) && spriteColumn b (c'.val - x0)) d
      ((List.range m).foldl (fun d j => if spriteColumn b j then xorPixel d r (x0 + j) else d) d) := by
  induction m with
  | zero => exact Drawn.nothing fun r' c' => by simp
  | succ m ih =>
    rw [List.range_succ, List.foldl_append, List.foldl_cons, List.foldl_nil]
    have one : Drawn (fun r' c' => decide (r'.val = r ∧ c'.val = x0 + m) && spriteColumn b m)
        ((List.range m).foldl (fun d j => if spriteColumn b j then xorPixel d r (x0 + j) else d) d)
        (if spriteColumn b m then
          xorPixel ((List.range m).foldl (fun d j => if spriteColumn b j then xorPixel d r (x0 + j) else d) d) r (x0 + m)
        else (List.range m).foldl (fun d j => if spriteColumn b j then xorPixel d r (x0 + j) else d) d) := by
      split
      · next hb => simpa [hb] using xorPixel_drawn _ r (x0 + m)
      · next hb => exact Drawn.nothing fun r' c' => by simp [hb]
    refine ih.trans one (fun r' c' h => ?_) fun r' c' => ?_
    · simp only [Bool.and_eq_true, decide_eq_true_eq] at h
      simp only [Bool.and_eq_false_iff, decide_eq_false_iff_not]
      omega
    · by_cases e : c'.val = x0 + m
      · simp [e]
      · have : (r'.val = r ∧ x0 ≤ c'.val ∧ c'.val < x0 + (m + 1)) ↔ (r'.val = r ∧ x0 ≤ c'.val ∧ c'.val < x0 + m) := by omega
        simp [e, this]

/-- The first `m` sprite rows. -/
theorem State.drawRows_drawn (s : State) (x0 y0 m : Nat) (hm : m ≤ 65536) :
    Drawn (fun r c => s.spriteBit x0 y0 m r.val c.val) (s.fb, false) (s.drawSprite x0 y0 m) := by
  induction m with
  | zero => exact Drawn.nothing fun r c => by simp [State.spriteBit]; omega
  | succ m ih =>
    have h := ih (by omega)
    unfold State.drawSprite at h ⊢
    rw [List.range_succ, List.foldl_append, List.foldl_cons, List.foldl_nil]
    refine h.trans (drawColumns_drawn (s.memRead (s.dataAddr m)) x0 (y0 + m) _ 8) (fun r c ha => ?_) fun r c => ?_
    · simp only [State.spriteBit, Bool.and_eq_true, decide_eq_true_eq] at ha
      simp only [Bool.and_eq_false_iff, decide_eq_false_iff_not]
      omega
    · simp only [State.spriteBit, spriteColumn, State.dataAddr]
      by_cases e : r.val = y0 + m
      · simp [e]
      · have e3 : (y0 ≤ r.val ∧ r.val < y0 + (m + 1) ∧ x0 ≤ c.val ∧ c.val < x0 + 8) ↔
            (y0 ≤ r.val ∧ r.val < y0 + m ∧ x0 ≤ c.val ∧ c.val < x0 + 8) := by omega
        simp [e3, e]

end Sys2Proof.Machine
end

