-- ==== Sys2Proof/Laws/Exec.lean ====
section
/-! SUPPORT. What every instruction does to the fault registers, to the wait, to `loadable` and to the form of memory: one
lemma each, over all instructions. -/

namespace Sys2Proof.Machine

/-- The state an outcome goes on to is the state it holds. -/
theorem next_eq {s t : State} (h : (Host.Outcome.next s : Host.Outcome State Fault Refusal) = .next t) : t = s :=
  (Host.Outcome.next.inj h).symm

/-- The two ways RET ends. -/
theorem execRet_cases {s t : State} (h : execRet s = .next t) :
    (∃ hs : 0 < s.sp.val, t = { s with pc := s.stack[s.sp.val - 1], sp := ⟨s.sp.val - 1, by omega⟩ }) ∨
    (s.sp = 0 ∧ t = s.raise .stackUnderflow) := by
  rcases s.pop_cases with ⟨hs, e⟩ | ⟨hs, e⟩ <;> simp only [execRet, e] at h
  · exact .inl ⟨hs, next_eq h⟩
  · exact .inr ⟨Fin.ext hs, next_eq h⟩

/-- The two ways CALL ends. -/
theorem execCall_cases {nnn : Addr} {s t : State} (h : execCall nnn s = .next t) :
    (∃ hs : s.sp.val < 16, t = { s with
      pc := zextAddr nnn, stack := s.stack.set s.sp.val s.pc, sp := ⟨s.sp.val + 1, by omega⟩ }) ∨
    (s.sp = 16 ∧ t = s.raise .stackOverflow) := by
  rcases s.push_cases s.pc with ⟨hs, e⟩ | ⟨hs, e⟩ <;> simp only [execCall, e] at h
  · exact .inl ⟨hs, next_eq h⟩
  · exact .inr ⟨Fin.ext hs, next_eq h⟩

/-- Only CALL with the stack full and RET with it empty write the fault registers. -/
theorem exec_fault_cases {ins : Instr} {s t : State} (h : exec ins s = .next t) :
    (t.halt = s.halt ∧ t.cause = s.cause ∧ t.faultWord = s.faultWord) ∨
    (t = s.raise .stackOverflow ∧ s.sp = 16 ∧ ∃ nnn, ins = .call nnn) ∨
    (t = s.raise .stackUnderflow ∧ s.sp = 0 ∧ ins = .ret) := by
  cases ins
  case ret =>
    rcases execRet_cases h with ⟨_, rfl⟩ | ⟨hs, rfl⟩
    · exact .inl ⟨rfl, rfl, rfl⟩
    · exact .inr (.inr ⟨rfl, hs, rfl⟩)
  case call nnn =>
    rcases execCall_cases h with ⟨_, rfl⟩ | ⟨hs, rfl⟩
    · exact .inl ⟨rfl, rfl, rfl⟩
    · exact .inr (.inl ⟨rfl, hs, nnn, rfl⟩)
  all_goals (rw [next_eq h]; simp)

/-- Only LD Vx, K enters the wait, and no instruction ends it. -/
theorem exec_wait_cases {ins : Instr} {s t : State} (h : exec ins s = .next t) :
    t.wait = s.wait ∨ ∃ x, ins = .ldKey x ∧ t = s.enterWait x := by
  cases ins
  case ret => rcases execRet_cases h with ⟨_, rfl⟩ | ⟨_, rfl⟩ <;> exact .inl rfl
  case call => rcases execCall_cases h with ⟨_, rfl⟩ | ⟨_, rfl⟩ <;> exact .inl rfl
  case ldKey x => exact .inr ⟨x, rfl, next_eq h⟩
  all_goals (rw [next_eq h]; simp)

/-- No instruction writes `loadable`. -/
theorem exec_loadable {ins : Instr} {s t : State} (h : exec ins s = .next t) : t.loadable = s.loadable := by
  cases ins
  case ret => rcases execRet_cases h with ⟨_, rfl⟩ | ⟨_, rfl⟩ <;> rfl
  case call => rcases execCall_cases h with ⟨_, rfl⟩ | ⟨_, rfl⟩ <;> rfl
  all_goals (rw [next_eq h]; simp)

/-- Every instruction keeps memory in its canonical form. -/
theorem exec_mem_wf {ins : Instr} {s t : State} (w : s.mem.wf = true) (h : exec ins s = .next t) : t.mem.wf = true := by
  cases ins
  case ret => rcases execRet_cases h with ⟨_, rfl⟩ | ⟨_, rfl⟩ <;> exact w
  case call => rcases execCall_cases h with ⟨_, rfl⟩ | ⟨_, rfl⟩ <;> exact w
  case storeRegs x =>
    rw [next_eq h]
    exact (State.storeFrom_spec w 0 _ (by have := s.regsUpTo_length x; omega)).1
  case ldBcd => rw [next_eq h]; exact (State.storeFrom_spec w 0 _ (by simp [bcdDigits])).1
  all_goals (rw [next_eq h]; simpa using w)

end Sys2Proof.Machine
end

