-- ==== Sys2Proof/Laws/PerInstr.lean ====
section
/-! SUPPORT. Facts about every instruction as written text: one lemma for each constructor. -/

namespace Sys2Proof.Laws.EncodeDefined

/-- The canonical word of an instruction is no unknown word of 30_encoding.md R112. -/
def Statement (ins : Instr) : Prop := wordDefined (encodeWord ins) = true

theorem cls : Statement (.cls) := by
  unfold Statement; decide

theorem ret : Statement (.ret) := by
  unfold Statement; decide

theorem jp (nnn : Addr) : Statement (.jp nnn) := by
  simp [Statement, wordDefined_fields, encodeWord]

theorem call (nnn : Addr) : Statement (.call nnn) := by
  simp [Statement, wordDefined_fields, encodeWord]

theorem seByte (x : Nibble) (kk : Byte) : Statement (.seByte x kk) := by
  simp [Statement, wordDefined_fields, encodeWord]

theorem sneByte (x : Nibble) (kk : Byte) : Statement (.sneByte x kk) := by
  simp [Statement, wordDefined_fields, encodeWord]

theorem seReg (x y : Nibble) : Statement (.seReg x y) := by
  simp [Statement, wordDefined_fields, encodeWord]

theorem ldByte (x : Nibble) (kk : Byte) : Statement (.ldByte x kk) := by
  simp [Statement, wordDefined_fields, encodeWord]

theorem addByte (x : Nibble) (kk : Byte) : Statement (.addByte x kk) := by
  simp [Statement, wordDefined_fields, encodeWord]

theorem ldReg (x y : Nibble) : Statement (.ldReg x y) := by
  simp [Statement, wordDefined_fields, encodeWord]; rfl

theorem orReg (x y : Nibble) : Statement (.orReg x y) := by
  simp [Statement, wordDefined_fields, encodeWord]; rfl

theorem andReg (x y : Nibble) : Statement (.andReg x y) := by
  simp [Statement, wordDefined_fields, encodeWord]; rfl

theorem xorReg (x y : Nibble) : Statement (.xorReg x y) := by
  simp [Statement, wordDefined_fields, encodeWord]; rfl

theorem addReg (x y : Nibble) : Statement (.addReg x y) := by
  simp [Statement, wordDefined_fields, encodeWord]; rfl

theorem subReg (x y : Nibble) : Statement (.subReg x y) := by
  simp [Statement, wordDefined_fields, encodeWord]; rfl

theorem shr (x : Nibble) : Statement (.shr x) := by
  simp [Statement, wordDefined_fields, encodeWord]; rfl

theorem subnReg (x y : Nibble) : Statement (.subnReg x y) := by
  simp [Statement, wordDefined_fields, encodeWord]; rfl

theorem shl (x : Nibble) : Statement (.shl x) := by
  simp [Statement, wordDefined_fields, encodeWord]; rfl

theorem sneReg (x y : Nibble) : Statement (.sneReg x y) := by
  simp [Statement, wordDefined_fields, encodeWord]

theorem ldI (nnn : Addr) : Statement (.ldI nnn) := by
  simp [Statement, wordDefined_fields, encodeWord]

theorem jpV0 (nnn : Addr) : Statement (.jpV0 nnn) := by
  simp [Statement, wordDefined_fields, encodeWord]

theorem rnd (x : Nibble) (kk : Byte) : Statement (.rnd x kk) := by
  simp [Statement, wordDefined_fields, encodeWord]

theorem drw (x y n : Nibble) : Statement (.drw x y n) := by
  simp [Statement, wordDefined_fields, encodeWord]

theorem skp (x : Nibble) : Statement (.skp x) := by
  simp [Statement, wordDefined_fields, encodeWord]; rfl

theorem sknp (x : Nibble) : Statement (.sknp x) := by
  simp [Statement, wordDefined_fields, encodeWord]; rfl

theorem ldRegDt (x : Nibble) : Statement (.ldRegDt x) := by
  simp [Statement, wordDefined_fields, encodeWord]; rfl

theorem ldKey (x : Nibble) : Statement (.ldKey x) := by
  simp [Statement, wordDefined_fields, encodeWord]; rfl

theorem ldDtReg (x : Nibble) : Statement (.ldDtReg x) := by
  simp [Statement, wordDefined_fields, encodeWord]; rfl

theorem ldStReg (x : Nibble) : Statement (.ldStReg x) := by
  simp [Statement, wordDefined_fields, encodeWord]; rfl

theorem addI (x : Nibble) : Statement (.addI x) := by
  simp [Statement, wordDefined_fields, encodeWord]; rfl

theorem ldFont (x : Nibble) : Statement (.ldFont x) := by
  simp [Statement, wordDefined_fields, encodeWord]; rfl

theorem ldBcd (x : Nibble) : Statement (.ldBcd x) := by
  simp [Statement, wordDefined_fields, encodeWord]; rfl

theorem storeRegs (x : Nibble) : Statement (.storeRegs x) := by
  simp [Statement, wordDefined_fields, encodeWord]; rfl

theorem loadRegs (x : Nibble) : Statement (.loadRegs x) := by
  simp [Statement, wordDefined_fields, encodeWord]; rfl

end Sys2Proof.Laws.EncodeDefined
end

