-- ==== Sys2Proof/Laws/Step.lean ====
section
/-! SUPPORT. What one step can do: `step` through its next event, the core's `Step` through its three states, and the
inversion of both. -/

namespace Sys2Proof.Machine

theorem State.running_iff {s : State} : s.running = true ↔ s.halt = false ∧ s.wait = false := by simp [State.running]

/-- The fetched word depends on memory only. -/
theorem State.wordAt_congr {s t : State} (h : s.mem = t.mem) (a : Word) : s.wordAt a = t.wordAt a := by
  simp only [State.wordAt, State.memRead, h]

/-- The high byte of a fetched word is the byte at the address. -/
@[simp] theorem State.hiByte_wordAt (s : State) (a : Word) : hiByte (s.wordAt a) = s.memRead a := by simp [State.wordAt]

/-- The low byte of a fetched word is the byte after it. -/
@[simp] theorem State.loByte_wordAt (s : State) (a : Word) : loByte (s.wordAt a) = s.memRead (a + 1#16) := by
  simp [State.wordAt]

/-- `step` performs the next event with the others left. -/
theorem step_nextEvent {s : State} {e : Event} {rest : List Event} (h : s.nextEvent = (e, rest)) :
    step s = handle e { s with events := rest } := by
  cases he : s.events with
  | nil =>
    have hn : s.nextEvent = (.step, []) := by simp only [State.nextEvent, he]
    obtain ⟨rfl, rfl⟩ := Prod.mk.inj (hn.symm.trans h)
    have hs : step s = stepCore s := by simp only [step, he]
    exact hs.trans (congrArg stepCore (by cases s; cases he; rfl))
  | cons f l =>
    have hn : s.nextEvent = (f, l) := by simp only [State.nextEvent, he]
    obtain ⟨rfl, rfl⟩ := Prod.mk.inj (hn.symm.trans h)
    simp only [step, he]

/-- A halted core's `Step` changes nothing (60_exceptions.md R245). -/
theorem stepCore_halted {s : State} (h : s.halt = true) : stepCore s = .next s := by simp [stepCore, h]

/-- A waiting core's `Step` polls the keypad (46_keypad.md R213). -/
theorem stepCore_waiting {s : State} (h : s.halt = false) (w : s.wait = true) : stepCore s = .next s.pollKeys := by
  simp [stepCore, h, w]

/-- A running core's `Step` executes what it decodes. -/
theorem stepCore_decoded {s : State} {ins : Instr} (h : s.running = true) (d : decodeWord (s.wordAt s.pc) = .ok ins) :
    stepCore s = exec ins s.fetched := by
  obtain ⟨h1, h2⟩ := State.running_iff.1 h
  simp [stepCore, h1, h2, d]

/-- A running core's `Step` on a word that does not decode raises UnknownOpcode. -/
theorem stepCore_undecoded {s : State} {e : DecodeError} (h : s.running = true) (d : decodeWord (s.wordAt s.pc) = .error e) :
    stepCore s = .next (s.fetched.raise .unknownOpcode) := by
  obtain ⟨h1, h2⟩ := State.running_iff.1 h
  simp [stepCore, h1, h2, d]

/-- What the core's `Step` can do. -/
theorem stepCore_cases {s t : State} (h : stepCore s = .next t) :
    (s.halt = true ∧ t = s) ∨
    (s.halt = false ∧ s.wait = true ∧ t = s.pollKeys) ∨
    (s.running = true ∧ ∃ ins, decodeWord (s.wordAt s.pc) = .ok ins ∧ exec ins s.fetched = .next t) ∨
    (s.running = true ∧ ∃ e, decodeWord (s.wordAt s.pc) = .error e ∧ t = s.fetched.raise .unknownOpcode) := by
  cases hh : s.halt with
  | true => rw [stepCore_halted hh] at h; exact .inl ⟨rfl, (Host.Outcome.next.inj h).symm⟩
  | false =>
    cases hw : s.wait with
    | true => rw [stepCore_waiting hh hw] at h; exact .inr (.inl ⟨rfl, rfl, (Host.Outcome.next.inj h).symm⟩)
    | false =>
      have hr := State.running_iff.2 ⟨hh, hw⟩
      cases hd : decodeWord (s.wordAt s.pc) with
      | ok ins => rw [stepCore_decoded hr hd] at h; exact .inr (.inr (.inl ⟨hr, ins, rfl, h⟩))
      | error e =>
        rw [stepCore_undecoded hr hd] at h
        exact .inr (.inr (.inr ⟨hr, e, rfl, (Host.Outcome.next.inj h).symm⟩))

/-- What `Load` can do. -/
theorem State.load_cases (s : State) (bytes : List Byte) :
    (s.loadable = true ∧ bytes.length ≤ 3584 ∧ s.load bytes = .next (s.loadImage 0x200 bytes)) ∨
    (s.loadable = true ∧ 3584 < bytes.length ∧ s.load bytes = .refused (.loadTooLong bytes.length)) ∨
    (s.loadable = false ∧ s.load bytes = .refused .loadAfterFirstStep) := by
  unfold State.load imageFits
  cases hl : s.loadable with
  | false => simp
  | true => by_cases hb : bytes.length ≤ 3584 <;> (simp [hb]; try omega)

/-- What one step can do, by its event: `u` is the state with that event taken off. -/
theorem step_cases {s t : State} (h : step s = .next t) :
    ∃ e rest, s.nextEvent = (e, rest) ∧
      (e = .step ∧ stepCore { s with events := rest } = .next t ∨
       e = .tick ∧ t = State.tick { s with events := rest } ∨
       (∃ k, e = .setKeys k ∧ t = State.setKeys { s with events := rest } k) ∨
       e = .reset ∧ t = State.resetEvent { s with events := rest } ∨
       ∃ bytes, e = .load bytes ∧ s.loadable = true ∧ bytes.length ≤ 3584 ∧
         t = State.loadImage { s with events := rest } 0x200 bytes) := by
  obtain ⟨e, rest, he⟩ : ∃ e rest, s.nextEvent = (e, rest) := ⟨_, _, rfl⟩
  refine ⟨e, rest, he, ?_⟩
  rw [step_nextEvent he] at h
  cases e with
  | step => exact .inl ⟨rfl, h⟩
  | tick => exact .inr (.inl ⟨rfl, (Host.Outcome.next.inj h).symm⟩)
  | setKeys k => exact .inr (.inr (.inl ⟨k, rfl, (Host.Outcome.next.inj h).symm⟩))
  | reset => exact .inr (.inr (.inr (.inl ⟨rfl, (Host.Outcome.next.inj h).symm⟩)))
  | load bytes =>
    refine .inr (.inr (.inr (.inr ⟨bytes, rfl, ?_⟩)))
    rcases State.load_cases { s with events := rest } bytes with ⟨h1, h2, h3⟩ | ⟨-, -, h3⟩ | ⟨-, h3⟩
    · exact ⟨h1, h2, (Host.Outcome.next.inj (h3.symm.trans h)).symm⟩
    · cases h3.symm.trans h
    · cases h3.symm.trans h

/-- A run whose first step goes on. -/
theorem run_succ {n : Nat} {s t : State} (h : step s = .next t) : core.run (n + 1) s = core.run n t := by
  have e : core.step s = .next t := h
  simp only [Host.Core.run, e]

/-- A run of one step. -/
theorem run_one (s : State) : core.run 1 s = step s := by
  have e : core.step s = step s := rfl
  cases h : step s <;> (simp only [Host.Core.run, e, h]; rfl)

end Sys2Proof.Machine
end

