-- ==== Sys2Proof/Tests/Slice0.lean ====
section
/-! SUPPORT. Tests: words from 30_encoding.md, vectors from 95_test_vectors.md (their ids stand beside each), the ill-formed
inputs each check refuses, and a state for every premise of the statements. Every step is one step. -/

namespace Sys2Proof.Tests

open Sys2Proof Sys2Proof.Machine

/-! ## Helpers -/

/-- A state after reset with a word where the next step fetches it. -/
def at0 (w : Word) : State := State.reset.withFetchWord 16 w.toNat

/-- Registers set. -/
def regs (l : List (Nibble × Byte)) (s : State) : State := l.foldl (fun t p => t.setReg p.1 p.2) s

/-- Bytes set. -/
def bytes (l : List (Word × Byte)) (s : State) : State := l.foldl (fun t p => t.memWrite p.1 p.2) s

/-- What `f` shows of the next state. -/
def see {α : Type} (o : Host.Outcome State Fault Refusal) (f : State → α) : Option α :=
  match o with
  | .next t => some (f t)
  | .fault _ => none
  | .refused _ => none

/-- What a step refuses with. -/
def refusal (o : Host.Outcome State Fault Refusal) : Option Refusal :=
  match o with
  | .refused r => some r
  | .next _ => none
  | .fault _ => none

/-- The set pixels, as flat cells. -/
def cells (s : State) : List Nat :=
  (s.hostView.fb.zipIdx.filter fun p => p.1).map fun p => p.2

/-- Bytes of memory from an address. -/
def mems (s : State) (a n : Nat) : List Byte := (List.range n).map fun k => memLookup s.mem (a + k)

/-! ## Decoding: words written out from the spec -/

/-- 30_encoding.md R101 (T1, T4), R110: `0000 0000 1110 0000` and `0000 0000 1110 1110`. -/
theorem test_decode_family0 : decodeWord 0b0000000011100000#16 = .ok .cls ∧
    decodeWord 0b0000000011101110#16 = .ok .ret := by decide

/-- 30_encoding.md R106 (T2, T3, T5): aliases of CLS and RET. -/
theorem test_decode_family0_aliases : decodeWord 0x0000#16 = .ok .cls ∧ decodeWord 0x0AB0#16 = .ok .cls ∧
    decodeWord 0x0FFE#16 = .ok .ret := by decide

/-- 40_control_flow.md R132 to R138: opcode, then `nnn`, or `x` and `kk`, or `x`, `y`. -/
theorem test_decode_control_flow : decodeWord 0b0001001000110100#16 = .ok (.jp 0x234#12) ∧
    decodeWord 0b0010001100000000#16 = .ok (.call 0x300#12) ∧
    decodeWord 0b0011000101000010#16 = .ok (.seByte 0x1#4 0x42#8) ∧
    decodeWord 0b0100000101000010#16 = .ok (.sneByte 0x1#4 0x42#8) ∧
    decodeWord 0b0101000100100000#16 = .ok (.seReg 0x1#4 0x2#4) ∧
    decodeWord 0b1001000100100000#16 = .ok (.sneReg 0x1#4 0x2#4) ∧
    decodeWord 0b1011000100100011#16 = .ok (.jpV0 0x123#12) := by decide

/-- T8, T9: the low nibble of families 5 and 9 is not examined. -/
theorem test_decode_families5_9_aliases : decodeWord 0x512F#16 = .ok (.seReg 0x1#4 0x2#4) ∧
    decodeWord 0x9AB7#16 = .ok (.sneReg 0xA#4 0xB#4) := by decide

/-- 41_register_ops.md R150 to R160. -/
theorem test_decode_register_ops : decodeWord 0b0110101011111111#16 = .ok (.ldByte 0xA#4 0xFF#8) ∧
    decodeWord 0b0111001000000010#16 = .ok (.addByte 0x2#4 0x02#8) ∧
    decodeWord 0b1000001000110000#16 = .ok (.ldReg 0x2#4 0x3#4) ∧
    decodeWord 0b1000001000110001#16 = .ok (.orReg 0x2#4 0x3#4) ∧
    decodeWord 0b1000001000110010#16 = .ok (.andReg 0x2#4 0x3#4) ∧
    decodeWord 0b1000001000110011#16 = .ok (.xorReg 0x2#4 0x3#4) ∧
    decodeWord 0b1000001000110100#16 = .ok (.addReg 0x2#4 0x3#4) ∧
    decodeWord 0b1000001000110101#16 = .ok (.subReg 0x2#4 0x3#4) ∧
    decodeWord 0b1000001000110110#16 = .ok (.shr 0x2#4) ∧
    decodeWord 0b1000001000110111#16 = .ok (.subnReg 0x2#4 0x3#4) ∧
    decodeWord 0b1000001000111110#16 = .ok (.shl 0x2#4) := by decide

/-- 42_random.md R170, 43_index_register.md R175 to R177, 45_draw.md R196. -/
theorem test_decode_random_index_draw : decodeWord 0b1100001110000001#16 = .ok (.rnd 0x3#4 0x81#8) ∧
    decodeWord 0b1010001100000000#16 = .ok (.ldI 0x300#12) ∧
    decodeWord 0b1111000100011110#16 = .ok (.addI 0x1#4) ∧
    decodeWord 0b1111000100101001#16 = .ok (.ldFont 0x1#4) ∧
    decodeWord 0b1101000100100101#16 = .ok (.drw 0x1#4 0x2#4 0x5#4) := by decide

/-- 44_memory_transfer.md R185 to R187, 46_keypad.md R210 to R212, 47_timers.md R225 to R227. -/
theorem test_decode_memory_keypad_timers : decodeWord 0b1111000100110011#16 = .ok (.ldBcd 0x1#4) ∧
    decodeWord 0b1111000101010101#16 = .ok (.storeRegs 0x1#4) ∧
    decodeWord 0b1111000101100101#16 = .ok (.loadRegs 0x1#4) ∧
    decodeWord 0b1110000110011110#16 = .ok (.skp 0x1#4) ∧
    decodeWord 0b1110000110100001#16 = .ok (.sknp 0x1#4) ∧
    decodeWord 0b1111000100001010#16 = .ok (.ldKey 0x1#4) ∧
    decodeWord 0b1111000100000111#16 = .ok (.ldRegDt 0x1#4) ∧
    decodeWord 0b1111000100010101#16 = .ok (.ldDtReg 0x1#4) ∧
    decodeWord 0b1111000100011000#16 = .ok (.ldStReg 0x1#4) := by decide

/-- The bytes of `6005` in memory order, and bytes that do not make a word (30_encoding.md R91, R92). -/
theorem test_decode_bytes : decode [0x60, 0x05, 0xAA] = .ok (.ldByte 0x0#4 0x05#8, [0xAA]) ∧
    decode [0x60] = .error .truncated ∧ decode [] = .error .truncated := by decide

/-- The canonical words of 30_encoding.md R107 for a few instructions. -/
theorem test_encode : encode .cls = [0x00, 0xE0] ∧ encode (.jp 0x234#12) = [0x12, 0x34] ∧
    encode (.drw 0x1#4 0x2#4 0x5#4) = [0xD1, 0x25] ∧ encode (.shl 0xA#4) = [0x8A, 0x0E] ∧
    encode (.storeRegs 0xF#4) = [0xFF, 0x55] := by decide

/-! ## The checks, each with input that it refuses -/

/-- T6 -/
theorem test_ill_formed_family0 : [0x0123#16, 0x00E1#16, 0x00FF#16, 0x0001#16].map wordDefined =
    [false, false, false, false] := by decide

/-- T11 -/
theorem test_ill_formed_family8 : [0x8008#16, 0x8129#16, 0x8FFF#16, 0x812A#16, 0x812B#16, 0x812C#16, 0x812D#16].map wordDefined =
    [false, false, false, false, false, false, false] := by decide

/-- T13 -/
theorem test_ill_formed_familyE : [0xE19F#16, 0xE0A0#16, 0xE000#16, 0xE1FF#16].map wordDefined =
    [false, false, false, false] := by decide

/-- T15 -/
theorem test_ill_formed_familyF : [0xF000#16, 0xF175#16, 0xF1FF#16, 0xF105#16, 0xF11F#16, 0xF030#16].map wordDefined =
    [false, false, false, false, false, false] := by decide

/-- The decoder refuses them too, by their own value. -/
theorem test_ill_formed_words_do_not_decode : decodeWord 0x00FF#16 = .error (.unknownOpcode 0x00FF#16) ∧
    decodeWord 0x8008#16 = .error (.unknownOpcode 0x8008#16) ∧ decodeWord 0xE19F#16 = .error (.unknownOpcode 0xE19F#16) ∧
    decodeWord 0xF105#16 = .error (.unknownOpcode 0xF105#16) := by decide

/-- T222, T223: an image of 3584 bytes fits and one of 3585 does not. -/
theorem test_image_size : imageFits (List.replicate 3584 0x00#8) = true ∧ imageFits (List.replicate 3585 0x00#8) = false := by decide +kernel

/-- Words the twelve families without unknown words never refuse (R112), and the unknown word of scenario S10. -/
theorem test_well_formed_words : [0x1FFF#16, 0x5FFF#16, 0x9FFF#16, 0xD000#16, 0x00EE#16].map wordDefined =
    [true, true, true, true, true] ∧ wordDefined 0xFFFF#16 = false := by decide

/-! ## Fetch -/

/-- S7, T20 -/
theorem test_fetch_big_endian : see (step (at0 0x6005#16)) (fun t => (t.reg 0x0#4, t.pc)) = some (0x05, 0x0202) ∧
    see (step (at0 0x1234#16)) (fun t => t.pc) = some 0x0234 := by decide

/-- T21: the second byte is at address 0. -/
theorem test_fetch_wraps : see (step (bytes [(0xFFF, 0x60), (0x000, 0x07)] { State.reset with pc := 0x0FFF }))
    (fun t => (t.reg 0x0#4, t.pc)) = some (0x07, 0x1001) := by decide

/-- T23, T24: the program counter wraps at 65536. -/
theorem test_pc_wraps : see (step (bytes [(0xFFE, 0x60), (0xFFF, 0x01)] { State.reset with pc := 0xFFFE }))
      (fun t => (t.reg 0x0#4, t.pc)) = some (0x01, 0x0000) ∧
    see (step (bytes [(0xFFE, 0x30), (0xFFF, 0x00)] { State.reset with pc := 0xFFFE })) (fun t => t.pc) = some 0x0002 := by
  decide

/-- T25: an odd program counter is no fault. -/
theorem test_fetch_odd : see (step (bytes [(0x201, 0x6A), (0x202, 0x55)] { State.reset with pc := 0x0201 }))
    (fun t => (t.reg 0xA#4, t.pc, t.halt)) = some (0x55, 0x0203, false) := by decide

/-- T224: from reset with nothing loaded, the first step runs 0000, an alias of CLS. -/
theorem test_step_from_reset : see (step State.reset) (fun t => (t.pc, t.halt, t.ir)) = some (0x0202, false, 0x0000) := by
  decide

/-! ## Control flow -/

/-- T51 -/
theorem test_cls : see (step (regs [(0xF, 1)] { at0 0x00E0#16 with fb := Framebuffer.clear.setPixel 3 4 true }))
    (fun t => (cells t, t.reg 0xF#4)) = some ([], 1) := by decide +kernel

/-- T36 -/
theorem test_ret : see (step { at0 0x00EE#16 with sp := 1, stack := State.reset.stack.set 0 0x0ABC })
    (fun t => (t.sp.val, t.pc, t.stack[0])) = some (0, 0x0ABC, 0x0ABC) := by decide

/-- T37, T38 -/
theorem test_ret_underflow : see (step (at0 0x0FFE#16)) (fun t => (t.halt, t.cause, t.faultWord, t.pc, t.sp.val)) =
    some (true, .stackUnderflow, 0x0FFE, 0x0202, 0) := by decide

/-- T32 -/
theorem test_jp : see (step (at0 0x1FFF#16)) (fun t => t.pc) = some 0x0FFF := by decide

/-- T34 -/
theorem test_call : see (step { at0 0x2300#16 with sp := 15 }) (fun t => (t.sp.val, t.pc, t.stack[15], t.halt)) =
    some (16, 0x0300, 0x0202, false) := by decide

/-- T35 -/
theorem test_call_overflow : see (step { at0 0x2300#16 with sp := 16 })
    (fun t => (t.halt, t.cause, t.faultWord, t.pc, t.sp.val)) = some (true, .stackOverflow, 0x2300, 0x0202, 16) := by decide

/-- T39, T40 -/
theorem test_seByte : see (step (regs [(1, 0x42)] (at0 0x3142#16))) (fun t => t.pc) = some 0x0204 ∧
    see (step (regs [(1, 0x42)] (at0 0x3143#16))) (fun t => t.pc) = some 0x0202 := by decide

/-- T42, T43 -/
theorem test_sneByte : see (step (regs [(1, 0x42)] (at0 0x4142#16))) (fun t => t.pc) = some 0x0202 ∧
    see (step (regs [(1, 0x42)] (at0 0x4100#16))) (fun t => t.pc) = some 0x0204 := by decide

/-- T44, T45 -/
theorem test_seReg : see (step (regs [(1, 7), (2, 7)] (at0 0x5120#16))) (fun t => t.pc) = some 0x0204 ∧
    see (step (regs [(1, 7), (2, 8)] (at0 0x5120#16))) (fun t => t.pc) = some 0x0202 := by decide

/-- T47, T48 -/
theorem test_sneReg : see (step (regs [(1, 7), (2, 8)] (at0 0x9120#16))) (fun t => t.pc) = some 0x0204 ∧
    see (step (regs [(3, 7)] (at0 0x9330#16))) (fun t => t.pc) = some 0x0202 := by decide

/-- T49, T50 -/
theorem test_jpV0 : see (step (regs [(0, 0x04)] (at0 0xB300#16))) (fun t => (t.pc, t.index)) = some (0x0304, 0) ∧
    see (step (regs [(0, 0xFF)] (at0 0xBFFF#16))) (fun t => t.pc) = some 0x10FE := by decide

/-! ## Registers and the ALU -/

/-- T61 -/
theorem test_ldByte : see (step (at0 0x6F07#16)) (fun t => (t.reg 0xF#4, t.pc)) = some (0x07, 0x0202) := by decide

/-- T62, T64 -/
theorem test_addByte : see (step (regs [(2, 0xFF)] (at0 0x7202#16))) (fun t => (t.reg 0x2#4, t.reg 0xF#4)) = some (0x01, 0) ∧
    see (step (regs [(0xF, 0xFF)] (at0 0x7F01#16))) (fun t => t.reg 0xF#4) = some 0x00 := by decide

/-- T65 -/
theorem test_ldReg : see (step (regs [(3, 0xAB)] (at0 0x8230#16))) (fun t => (t.reg 0x2#4, t.reg 0x3#4)) =
    some (0xAB, 0xAB) := by decide

/-- T66 (with a bit both operands have) -/
theorem test_orReg : see (step (regs [(0, 0xF0), (1, 0x1F), (0xF, 1)] (at0 0x8011#16))) (fun t => (t.reg 0x0#4, t.reg 0xF#4)) =
    some (0xFF, 1) := by decide

/-- T67 -/
theorem test_andReg : see (step (regs [(0, 0xF3), (1, 0x3F), (0xF, 1)] (at0 0x8012#16))) (fun t => (t.reg 0x0#4, t.reg 0xF#4)) =
    some (0x33, 1) := by decide

/-- T68 -/
theorem test_xorReg : see (step (regs [(0, 0xFF), (1, 0x0F), (0xF, 1)] (at0 0x8013#16))) (fun t => (t.reg 0x0#4, t.reg 0xF#4)) =
    some (0xF0, 1) := by decide

/-- T72, T73 -/
theorem test_addReg : see (step (regs [(0, 0xFF), (1, 0xFF)] (at0 0x8014#16))) (fun t => (t.reg 0x0#4, t.reg 0xF#4)) =
      some (0xFE, 1) ∧
    see (step (regs [(0, 0xFF), (1, 0x00)] (at0 0x8014#16))) (fun t => (t.reg 0x0#4, t.reg 0xF#4)) = some (0xFF, 0) := by
  decide

/-- T75, T77: VF as result and as source. -/
theorem test_addReg_vf : see (step (regs [(0xF, 0xFF), (1, 0x01)] (at0 0x8F14#16))) (fun t => t.reg 0xF#4) = some 1 ∧
    see (step (regs [(0, 0x01), (0xF, 0xFF)] (at0 0x80F4#16))) (fun t => (t.reg 0x0#4, t.reg 0xF#4)) = some (0x00, 1) := by
  decide

/-- T78, T80 -/
theorem test_subReg : see (step (regs [(0, 0x05), (1, 0x07)] (at0 0x8015#16))) (fun t => (t.reg 0x0#4, t.reg 0xF#4)) =
      some (0xFE, 0) ∧
    see (step (regs [(0, 0x05), (1, 0x05)] (at0 0x8015#16))) (fun t => (t.reg 0x0#4, t.reg 0xF#4)) = some (0x00, 1) := by
  decide

/-- T83, T84 -/
theorem test_subReg_vf : see (step (regs [(0xF, 0x03), (1, 0x05)] (at0 0x8F15#16))) (fun t => t.reg 0xF#4) = some 0 ∧
    see (step (regs [(0xF, 0x05), (1, 0x03)] (at0 0x8F15#16))) (fun t => t.reg 0xF#4) = some 1 := by decide

/-- T85, T86 -/
theorem test_subnReg : see (step (regs [(0, 0x05), (1, 0x07)] (at0 0x8017#16))) (fun t => (t.reg 0x0#4, t.reg 0xF#4)) =
      some (0x02, 1) ∧
    see (step (regs [(0, 0x07), (1, 0x05)] (at0 0x8017#16))) (fun t => (t.reg 0x0#4, t.reg 0xF#4)) = some (0xFE, 0) := by
  decide

/-- T89: `y` is ignored. -/
theorem test_shr : see (step (regs [(0, 0x04), (1, 0xFF)] (at0 0x8016#16))) (fun t => (t.reg 0x0#4, t.reg 0xF#4, t.reg 0x1#4)) =
    some (0x02, 0, 0xFF) := by decide

/-- T93 -/
theorem test_shr_vf : see (step (regs [(0xF, 0x02)] (at0 0x8F06#16))) (fun t => t.reg 0xF#4) = some 0 := by decide

/-- T94 -/
theorem test_shl : see (step (regs [(0, 0x81)] (at0 0x800E#16))) (fun t => (t.reg 0x0#4, t.reg 0xF#4)) = some (0x02, 1) := by
  decide

/-- T98 -/
theorem test_shl_vf : see (step (regs [(0xF, 0x40)] (at0 0x8F0E#16))) (fun t => t.reg 0xF#4) = some 0 := by decide

/-- T100, T103 -/
theorem test_rnd : see (step { at0 0xC00F#16 with rnd := [0xA7, 0x11] }) (fun t => (t.reg 0x0#4, t.rnd)) = some (0x07, [0x11]) ∧
    see (step { at0 0xCF81#16 with rnd := [0xFF] }) (fun t => t.reg 0xF#4) = some 0x81 := by decide

/-- With no byte supplied the draw is a free value and the counter moves on (42_random.md R171). -/
theorem test_rnd_free : see (step (at0 0xC000#16)) (fun t => t.draws) = some 1 := by decide

/-! ## The index register, memory -/

/-- T110 -/
theorem test_ldI : see (step { at0 0xA000#16 with index := 0xFFFF }) (fun t => t.index) = some 0 := by decide

/-- T113, T114 -/
theorem test_addI : see (step (regs [(0, 2)] { at0 0xF01E#16 with index := 0x0FFF })) (fun t => (t.index, t.reg 0xF#4)) =
      some (0x1001, 0) ∧
    see (step (regs [(0, 1)] { at0 0xF01E#16 with index := 0xFFFF })) (fun t => t.index) = some 0 := by decide

/-- T118, T120 -/
theorem test_ldFont : see (step (regs [(0, 0x0F)] (at0 0xF029#16))) (fun t => t.index) = some 0x009B ∧
    see (step (regs [(0, 0xFF)] (at0 0xF029#16))) (fun t => t.index) = some 0x054B := by decide

/-- T130, T135 -/
theorem test_ldBcd : see (step (regs [(0, 0xFE)] { at0 0xF033#16 with index := 0x0300 })) (fun t => mems t 0x2FF 5) =
      some [0, 2, 5, 4, 0] ∧
    see (step (regs [(0, 0x7B)] { at0 0xF033#16 with index := 0x0FFF })) (fun t => (mems t 0xFFF 1, mems t 0x000 3)) =
      some ([1], [2, 3, 0]) := by decide

/-- T137 -/
theorem test_storeRegs : see (step (regs [(0, 1), (1, 2), (2, 3), (3, 9)] { at0 0xF255#16 with index := 0x0400 }))
    (fun t => (mems t 0x400 4, t.index)) = some ([1, 2, 3, 0], 0x0400) := by decide

/-- T138 -/
theorem test_storeRegs_one : see (step (regs [(0, 0x12), (1, 0x34)] { at0 0xF055#16 with index := 0x0300 }))
    (fun t => mems t 0x300 2) = some [0x12, 0] := by decide

/-- T140 -/
theorem test_loadRegs : see (step (regs [(3, 9)] (bytes [(0x300, 2), (0x301, 5), (0x302, 4), (0x303, 0x77)]
      { at0 0xF265#16 with index := 0x0300 })))
    (fun t => (t.reg 0x0#4, t.reg 0x1#4, t.reg 0x2#4, t.reg 0x3#4, t.index)) = some (2, 5, 4, 9, 0x0300) := by decide

/-- Writing what an unlisted address reads as removes the entry: glyph 0 of the font table at 0x050 (20_memory.md R70). -/
theorem test_memory_canonical :
    (State.reset.memWrite 0x0050 0x12).mem = [(0x050, 0x12)] ∧
    ((State.reset.memWrite 0x0050 0x12).memWrite 0x1050 0xF0).mem = [] := by decide

/-! ## Draw -/

/-- T150: glyph 0. -/
theorem test_drw : see (step { at0 0xD015#16 with index := 0x0050 }) (fun t => (cells t, t.reg 0xF#4)) =
    some ([0, 1, 2, 3, 64, 67, 128, 131, 192, 195, 256, 257, 258, 259], 0) := by decide +kernel

/-- T152, T163: clipped at the bottom and the right. -/
theorem test_drw_clips : see (step (regs [(1, 0x7E), (2, 0x3E)] { at0 0xD125#16 with index := 0x0069 }))
    (fun t => (cells t, t.reg 0xF#4)) = some ([1982, 1983, 2046], 0) := by decide +kernel

/-- T156, T157: a set bit on a set pixel collides, a clear bit does not. -/
theorem test_drw_collision :
    see (step (bytes [(0x300, 0xC0)] { at0 0xD011#16 with index := 0x0300, fb := Framebuffer.clear.setPixel 0 0 true }))
      (fun t => (cells t, t.reg 0xF#4)) = some ([1], 1) ∧
    see (step (bytes [(0x300, 0x40)] { at0 0xD011#16 with index := 0x0300, fb := Framebuffer.clear.setPixel 0 0 true }))
      (fun t => (cells t, t.reg 0xF#4)) = some ([0, 1], 0) := by decide +kernel

/-- T160, T161: a coordinate in VF; the sprite's address wraps. -/
theorem test_drw_vf_and_wrap :
    see (step (regs [(0xF, 1)] (bytes [(0x300, 0x80)] { at0 0xDF11#16 with index := 0x0300 })))
      (fun t => (cells t, t.reg 0xF#4)) = some ([1], 0) ∧
    see (step (bytes [(0xFFF, 0x80), (0x000, 0x40)] { at0 0xD012#16 with index := 0x0FFF })) cells = some [0, 65] := by decide +kernel

/-! ## Keypad -/

/-- T170, T174: key 5, named by 05 and by 15. -/
theorem test_skp : see (step (regs [(0, 0x05)] { at0 0xE09E#16 with keys := 0x0020 })) (fun t => t.pc) = some 0x0204 ∧
    see (step (regs [(0, 0x15)] { at0 0xE09E#16 with keys := 0x0020 })) (fun t => t.pc) = some 0x0204 := by decide

/-- T171 -/
theorem test_skp_up : see (step (regs [(0, 0x05)] { at0 0xE09E#16 with keys := 0xFFDF })) (fun t => t.pc) = some 0x0202 := by
  decide

/-- T172, T173 -/
theorem test_sknp : see (step (regs [(0, 0x05)] { at0 0xE0A1#16 with keys := 0x0020 })) (fun t => t.pc) = some 0x0202 ∧
    see (step (regs [(0, 0x05)] (at0 0xE0A1#16))) (fun t => t.pc) = some 0x0204 := by decide

/-- T176 -/
theorem test_ldKey : see (step { at0 0xF10A#16 with keys := 0x0080 })
    (fun t => (t.wait, t.waitReg, t.keyPrev, t.pc, t.reg 0x1#4)) = some (true, 0x1, 0x0080, 0x0202, 0) := by decide

/-- A core that awaits a key for a register. -/
def waiting (x : Nibble) (prev now : Word) : State :=
  { State.reset with wait := true, waitReg := x, keyPrev := prev, keys := now, pc := 0x0202, loadable := false }

/-- T177, T178, T179 -/
theorem test_wait_held_and_released :
    see (step (waiting 0x1 0x0080 0x0080)) (fun t => (t.wait, t.keyPrev)) = some (true, 0x0080) ∧
    see (step (waiting 0x1 0x0080 0x0000)) (fun t => (t.wait, t.keyPrev)) = some (true, 0x0000) ∧
    see (step (waiting 0x1 0x0000 0x0080)) (fun t => (t.wait, t.reg 0x1#4, t.pc)) = some (false, 0x07, 0x0202) := by decide

/-- T180, T181, T183: the least key that rises. -/
theorem test_wait_least_key : see (step (waiting 0x2 0x0000 0x0108)) (fun t => t.reg 0x2#4) = some 0x03 ∧
    see (step (waiting 0x2 0x0008 0x0108)) (fun t => t.reg 0x2#4) = some 0x08 ∧
    see (step (waiting 0xF 0x0000 0x0001)) (fun t => (t.reg 0xF#4, t.wait)) = some (0x00, false) := by decide

/-! ## Timers -/

/-- T190 -/
theorem test_ldDtReg : see (step (regs [(0, 3)] (at0 0xF015#16))) (fun t => (t.dt, t.st)) = some (3, 0) := by decide

/-- T191 -/
theorem test_ldStReg : see (step (regs [(3, 0x1E)] (at0 0xF318#16))) (fun t => (t.dt, t.st)) = some (0, 0x1E) := by decide

/-- T192 -/
theorem test_ldRegDt : see (step { at0 0xF207#16 with dt := 3 }) (fun t => (t.reg 0x2#4, t.dt)) = some (3, 3) := by decide

/-- T193, T194 -/
theorem test_tick : see (step { State.reset with dt := 3, st := 1, events := [.tick] }) (fun t => (t.dt, t.st, t.pc)) =
      some (2, 0, 0x0200) ∧
    see (step { State.reset with events := [.tick] }) (fun t => (t.dt, t.st)) = some (0, 0) := by decide

/-- T182, T197 -/
theorem test_tick_waiting_and_halted :
    see (step { waiting 0x1 0 0 with dt := 5, st := 1, events := [.tick] }) (fun t => (t.dt, t.st, t.wait)) =
      some (4, 0, true) ∧
    see (step { State.reset with halt := true, dt := 5, events := [.tick] }) (fun t => t.dt) = some 5 := by decide

/-! ## Faults, reset, load, keys -/

/-- S10 -/
theorem test_unknown_opcode : see (step (at0 0xFFFF#16)) (fun t => (t.halt, t.cause.code, t.faultWord, t.pc)) =
    some (true, 1, 0xFFFF, 0x0202) := by decide

/-- T211, T212: a halted core. -/
def halted : State :=
  { at0 0x8008#16 with
    pc := 0x0202, halt := true, cause := .unknownOpcode, faultWord := 0x8008, ir := 0x8008, loadable := false }

theorem test_halted : see (step halted) id = some halted ∧
    see (step { halted with events := [.setKeys 0x0001] }) id = some { halted with keys := 0x0001 } := by decide

/-- T213, T220 -/
theorem test_reset : see (step { halted with keys := 0x1234, events := [.reset] })
      (fun t => (t.halt, t.cause.code, t.faultWord)) = some (false, 0, 0) ∧
    see (step { halted with keys := 0x1234, events := [.reset] })
      (fun t => (t.pc, mems t 0x200 2, t.keys)) = some (0x0200, [0, 0], 0x1234) := by decide

/-- T220: the ends of the font table and the bytes beside it. -/
theorem test_reset_memory : mems State.reset 0x04F 6 = [0, 0xF0, 0x90, 0x90, 0x90, 0xF0] ∧
    mems State.reset 0x09B 6 = [0xF0, 0x80, 0xF0, 0x80, 0x80, 0] ∧ mems State.reset 0xFFF 1 = [0] := by decide

/-- T221 -/
theorem test_load : see (step { State.reset with events := [.load [0x60, 0x05]] }) (fun t => (mems t 0x1FF 4, t.pc)) =
    some ([0, 0x60, 0x05, 0], 0x0200) := by decide

/-- 70_reset_and_hazards.md R284: too late, and too long (T223). -/
theorem test_load_refused :
    refusal (step { State.reset with loadable := false, events := [.load []] }) = some .loadAfterFirstStep ∧
    refusal (step { State.reset with events := [.load (List.replicate 3585 0x00#8)] }) = some (.loadTooLong 3585) := by decide +kernel

/-- The host's reading of a table word. -/
theorem test_table_word : decodeTableWord 16 0x00E0 = some .cls ∧ decodeTableWord 16 0xF165 = some (.loadRegs 0x1#4) ∧
    decodeTableWord 16 0x8008 = none := by decide

/-- The constants of 00_scope.md R6 are the ones State and memory are built with, and one frame's events are
60_exceptions.md R258's. -/
theorem test_constants : Config.memSize = 4096 ∧ Config.fontBase + Config.fontSize = 0x0A0 ∧
    fontTable.length = Config.fontSize ∧ Config.fbWidth * Config.fbHeight = 2048 ∧ Config.instrBytes = 2 ∧
    State.reset.pc.toNat = Config.loadAddr ∧ frameEvents 2 true = [.step, .step, .tick] := by decide

/-! ## Witnesses: for every premise of a statement, states and operands that meet it -/

/-- `DecodeOfEncode`, `UnknownWordsAreTheTables`: both clauses, at the edge words of the table of R112. -/
theorem test_witness_wordDefined : wordDefined 0x0002#16 = false ∧ wordDefined 0xFFFF#16 = false ∧
    wordDefined 0x0000#16 = true ∧ wordDefined 0xFF65#16 = true := by decide

/-- `OpcodeMapDecidesDecoding`: a row of the map covers a word. -/
theorem test_witness_row_covers : ∃ r ∈ opcodeMap, r.covers 0xFF65#16 = true := by decide

/-- `AliasesDecodeAlike`: a word, and another that differs from it only in don't-care bits. -/
theorem test_witness_alias : decodeWord 0x00E0#16 = .ok .cls ∧
    0x0FF0#16 &&& examinedBits .cls = 0x00E0#16 &&& examinedBits .cls ∧
    decodeWord 0x5120#16 = .ok (.seReg 0x1#4 0x2#4) ∧
    0x512F#16 &&& examinedBits (.seReg 0x1#4 0x2#4) = 0x5120#16 &&& examinedBits (.seReg 0x1#4 0x2#4) := by decide

/-- The premises of `EncodedBy`, in the statement of every instruction: a word under each mask (the words of the map). -/
theorem test_witness_masks : opcodeMap.all (fun r => r.covers r.value) = true := by decide

/-- `StepRunsTheDecodedInstruction`: by an empty agenda, and by a `step` before another event. -/
theorem test_witness_step_runs : (at0 0x6005#16).nextEvent = (.step, []) ∧ (at0 0x6005#16).running = true ∧
    { at0 0x6005#16 with events := [.step, .tick] }.nextEvent = (.step, [.tick]) ∧
    decode [(at0 0x6005#16).memRead 0x0200, (at0 0x6005#16).memRead 0x0201] = .ok (.ldByte 0x0#4 0x05#8, []) := by decide

/-- `UnknownOpcodeHalts`. -/
theorem test_witness_unknown_opcode : (at0 0xFFFF#16).nextEvent = (.step, []) ∧ (at0 0xFFFF#16).running = true ∧
    wordDefined ((at0 0xFFFF#16).wordAt 0x0200) = false := by decide

/-- `FaultEntryIsPrecise`: each of the three faults is entered from a core that was not halted. -/
theorem test_witness_fault_entry :
    (at0 0xFFFF#16).halt = false ∧ see (step (at0 0xFFFF#16)) (fun t => (t.halt, t.cause)) = some (true, .unknownOpcode) ∧
    see (step { at0 0x2300#16 with sp := 16 }) (fun t => (t.halt, t.cause)) = some (true, .stackOverflow) ∧
    see (step (at0 0x00EE#16)) (fun t => (t.halt, t.cause)) = some (true, .stackUnderflow) := by decide

/-- `HaltedCoreIsInert`: each of the three events of a halted core. -/
theorem test_witness_halted : halted.halt = true ∧ halted.nextEvent = (.step, []) ∧
    { halted with events := [.tick] }.nextEvent = (.tick, []) ∧
    { halted with events := [.setKeys 0xFFFF] }.nextEvent = (.setKeys 0xFFFF, []) := by decide

/-- `OnlyResetLeavesHalt`: a halted core steps on, and only `Reset` clears the halt. -/
theorem test_witness_leaving_halt : halted.halt = true ∧ see (step halted) (fun t => t.halt) = some true ∧
    see (step { halted with events := [.reset] }) (fun t => t.halt) = some false := by decide

/-- `RetPopsOrUnderflows`: the clauses at 1, 16 and 0 return addresses. -/
theorem test_witness_ret : ({ State.reset with sp := 1 } : State).sp.val = (0 : Fin 16).val + 1 ∧
    ({ State.reset with sp := 16 } : State).sp.val = (15 : Fin 16).val + 1 ∧ State.reset.sp.val = 0 := by decide

/-- `CallPushesOrOverflows`, `ReturnAfterCallComesBack`: the clauses at 0, 15 and 16 return addresses. -/
theorem test_witness_call : State.reset.sp.val = (0 : Fin 16).val ∧ ({ State.reset with sp := 15 } : State).sp.val = (15 : Fin 16).val ∧
    ({ State.reset with sp := 15 } : State).sp.val < 16 ∧ (14 : Fin 16).val < ({ State.reset with sp := 15 } : State).sp.val ∧
    (14 : Fin 16) ≠ 15 ∧ ({ State.reset with sp := 16 } : State).sp.val = 16 := by decide

/-- The premises on register numbers (`z ≠ x`, `x ≠ 0xF`) at the ends of the range; the clause of `LoadRegistersFromMemory` on
the registers above `x`, and those of the bulk transfers on the registers up to `x`. -/
theorem test_witness_registers : (0x0#4 : Nibble) ≠ 0xF#4 ∧ (0xE#4 : Nibble) ≠ 0xF#4 ∧ (0x0#4 : Nibble).toNat ≤ (0x0#4 : Nibble).toNat ∧
    (0xE#4 : Nibble).toNat < (0xF#4 : Nibble).toNat := by decide

/-- `ReadAfterWrite`: addresses that reduce to one (0x0FFF and 0xFFFF), and that do not. -/
theorem test_witness_addresses : State.reset.mem.wf = true ∧ (0x0FFF#16).toNat % 4096 = (0xFFFF#16).toNat % 4096 ∧
    (0x0FFF#16).toNat % 4096 ≠ (0x1000#16).toNat % 4096 := by decide

/-- `CanonicalMemoriesAreEqual`: the same bytes written in two orders. -/
theorem test_witness_canonical :
    (bytes [(0xFFF, 0x01), (0x000, 0x02)] State.reset).mem.wf = true ∧
    (bytes [(0x000, 0x02), (0xFFF, 0x01)] State.reset).mem.wf = true ∧
    (bytes [(0xFFF, 0x01), (0x000, 0x02)] State.reset).mem = (bytes [(0x000, 0x02), (0xFFF, 0x01)] State.reset).mem := by decide

/-- `BcdStoresThreeDigits`, `StoreRegistersToMemory`: a canonical memory, and an address outside the stored bytes on each
side, at `I = 0x0FFF`. -/
theorem test_witness_frame_of_memory : State.reset.mem.wf = true ∧
    (∀ k, k < 3 → reduceAddr 0x0FFE#16 ≠ reduceAddr ({ State.reset with index := 0x0FFF }.dataAddr k)) ∧
    (∀ k, k < 3 → reduceAddr 0x0002#16 ≠ reduceAddr ({ State.reset with index := 0x0FFF }.dataAddr k)) ∧
    (∀ k, k ≤ (0x0#4 : Nibble).toNat → reduceAddr 0x0000#16 ≠ reduceAddr ({ State.reset with index := 0x0FFF }.dataAddr k)) := by
  decide

/-- `StoreThenLoadIsIdentity`: the state after the store is itself such a `t'`. -/
theorem test_witness_store_then_load : State.reset.mem.wf = true ∧
    see (exec (.storeRegs 0xF#4) State.reset) (fun t => (t.index, t.v)) = some (State.reset.index, State.reset.v) := by decide

/-- `FetchSeesStores`: both stores at 0x200; with `x = 0` and `I = 0x203` only the low byte of the next word is stored to,
and an `I` of 0x11FF, reduced, is the byte before it. -/
theorem test_witness_fetch_sees_stores : (at0 0xF055#16).nextEvent = (.step, []) ∧ (at0 0xF055#16).running = true ∧
    (at0 0xF055#16).mem.wf = true ∧ decodeWord ((at0 0xF055#16).wordAt 0x0200) = .ok (.storeRegs 0x0#4) ∧
    (at0 0xF033#16).nextEvent = (.step, []) ∧ (at0 0xF033#16).running = true ∧ (at0 0xF033#16).mem.wf = true ∧
    decodeWord ((at0 0xF033#16).wordAt 0x0200) = .ok (.ldBcd 0x0#4) ∧
    reduceAddr ({ State.reset with index := 0x0203 }.dataAddr 0) = reduceAddr (0x0202#16 + 1#16) ∧
    (∀ k, k < 1 → reduceAddr ({ State.reset with index := 0x0203 }.dataAddr k) ≠ reduceAddr 0x0202#16) ∧
    (∀ k, k < 3 → reduceAddr ({ State.reset with index := 0x11FF }.dataAddr k) ≠ reduceAddr 0x0202#16) := by decide

/-- T142, and a BCD store (`F033` of 0x7B at `I = 0x201`) whose last two digits are the next word. -/
theorem test_fetch_sees_stores :
    see (step (regs [(0, 0x12)] (bytes [(0x202, 0xFF), (0x203, 0x08)] { at0 0xF055#16 with index := 0x0202 })))
      (fun t => t.wordAt t.pc) = some 0x1208 ∧
    see (step (regs [(0, 0x7B)] { at0 0xF033#16 with index := 0x0201 })) (fun t => t.wordAt t.pc) = some 0x0203 := by decide

/-- `DrawXorsTheSprite`: a set bit on a set pixel, in the last row and column; and no such pair on an empty framebuffer. -/
theorem test_witness_draw_collision :
    (∃ r c, (Framebuffer.clear.setPixel 31 63 true).pixel r c = true ∧
      (bytes [(0x300, 0x80)] { State.reset with index := 0x0300 }).spriteBit 63 31 1 r.val c.val = true) ∧
    ¬∃ r c, Framebuffer.clear.pixel r c = true ∧
      (bytes [(0x300, 0x80)] { State.reset with index := 0x0300 }).spriteBit 63 31 1 r.val c.val = true := by
  refine ⟨⟨31, 63, by decide, by decide⟩, ?_⟩
  rintro ⟨r, c, h, -⟩
  simp [Framebuffer.pixel, Framebuffer.clear] at h

/-- `DrawingTwiceRestores`: the state after the first draw is itself such a `t'` when no coordinate is VF. -/
theorem test_witness_drawing_twice : see (exec (.drw 0x0#4 0x1#4 0xF#4) { State.reset with index := 0x0050 })
    (fun t => (t.index, t.reg 0x0#4, t.reg 0x1#4, t.mem)) = some (0x0050, 0x00, 0x00, []) := by decide +kernel

/-- `WaitingStepPollsTheKeys`: key 0 the least, key 15 the least, and no key risen while one is held. -/
theorem test_witness_waiting : (waiting 0x1 0x0000 0xFFFF).nextEvent = (.step, []) ∧ (waiting 0x1 0x0000 0xFFFF).halt = false ∧
    (waiting 0x1 0x0000 0xFFFF).wait = true ∧
    (waiting 0x1 0x0000 0xFFFF).keys.getLsbD (0 : Fin 16) = true ∧
    (waiting 0x1 0x7FFF 0xFFFF).keys.getLsbD (15 : Fin 16) = true ∧
    (waiting 0x1 0x7FFF 0xFFFF).keyPrev.getLsbD (15 : Fin 16) = false ∧
    (∀ j : Fin 16, j < 15 → (waiting 0x1 0x7FFF 0xFFFF).keyPrev.getLsbD j = true) ∧
    (∀ k : Fin 16, (waiting 0x1 0x8001 0x8001).keys.getLsbD k = true → (waiting 0x1 0x8001 0x8001).keyPrev.getLsbD k = true) := by
  decide

/-- `TickCountsDown`: both clauses. -/
theorem test_witness_tick : { State.reset with events := [.tick] }.nextEvent = (.tick, []) ∧
    { State.reset with events := [.tick] }.halt = false ∧ { halted with events := [.tick] }.halt = true := by decide

/-- `TimersReachZeroAndStay`: more ticks than the timer holds. -/
theorem test_witness_ticks : State.reset.halt = false ∧
    ({ State.reset with dt := 2, events := [.tick, .tick, .tick] } : State).events = List.replicate 3 .tick ++ [] := by decide

/-- `TimersRiseOnlyByTheirLoads`: each timer rises by its load. -/
theorem test_witness_timers_rise : State.reset.dt.toNat = 0 ∧ State.reset.st.toNat = 0 ∧
    see (step (regs [(0, 0xFF)] (at0 0xF015#16))) (fun t => t.dt) = some 0xFF ∧
    see (step (regs [(0, 0x01)] (at0 0xF018#16))) (fun t => t.st) = some 0x01 := by decide

/-- `ResetInitialisesEverything`, `SetKeysReplacesTheLatch`, and the ends of the two ranges of addresses. -/
theorem test_witness_reset : { halted with events := [.reset, .step] }.nextEvent = (.reset, [.step]) ∧
    { halted with events := [.setKeys 0xFFFF, .step] }.nextEvent = (.setKeys 0xFFFF, [.step]) ∧
    ¬(0x050 ≤ 0x04F ∧ 0x04F < 0x0A0) ∧ ¬(0x050 ≤ 0x0A0 ∧ 0x0A0 < 0x0A0) ∧ (0x050 ≤ 0x09F ∧ 0x09F < 0x0A0) := by decide

/-- `LoadCopiesTheImage`: the longest image, one byte more, and a core that has stepped. -/
theorem test_witness_load :
    { State.reset with events := [.load (List.replicate 3584 0xAA#8)] }.nextEvent = (.load (List.replicate 3584 0xAA#8), []) ∧
    State.reset.loadable = true ∧ (List.replicate 3584 0xAA#8).length ≤ 3584 ∧ State.reset.mem.wf = true ∧
    3583 < (List.replicate 3584 0xAA#8).length ∧ 0x200 + (List.replicate 3584 0xAA#8).length ≤ 4096 ∧
    3584 < (List.replicate 3585 0xAA#8).length ∧ see (step (at0 0x00E0#16)) (fun t => t.loadable) = some false := by
  decide +kernel

/-- `FirstStepRunsTheLoadedProgram`: the longest image, whose first word is `6005`. -/
theorem test_witness_boot : ({ halted with events := [.reset, .load (0x60 :: 0x05 :: List.replicate 3582 0x00#8), .step] } : State).events =
      [.reset, .load (0x60 :: 0x05 :: List.replicate 3582 0x00#8), .step] ∧
    (List.replicate 3582 0x00#8).length ≤ 3582 ∧ decode [0x60, 0x05] = .ok (.ldByte 0x0#4 0x05#8, []) := by decide +kernel

/-- `EndOfRunStays`: T31, a jump to itself. -/
theorem test_witness_end_of_run : (at0 0x1200#16).nextEvent = (.step, []) ∧ (at0 0x1200#16).atEnd :=
  ⟨by decide, by decide, 0x200#12, by decide, by decide⟩

/-- `OnlyAnIllegalLoadIsRefused`: both sides. -/
theorem test_witness_refused : (see (step State.reset) (fun t => t.pc)).isSome = true ∧
    { State.reset with loadable := false, events := [.load []] }.nextEvent = (.load [], []) := by decide

/-- `EachStoreHasItsOnlyWriters`: each store is changed by a writer of it. -/
theorem test_witness_writers :
    see (exec .cls { State.reset with fb := Framebuffer.clear.setPixel 0 0 true }) (fun t => t.fb.pixel 0 0) = some false ∧
    see (exec (.ldBcd 0x0#4) { State.reset with index := 0x0050 }) (fun t => memLookup t.mem 0x050) = some 0 ∧
    see (exec (.ldI 0x300#12) State.reset) (fun t => t.index) = some 0x0300 ∧
    see (exec (.call 0x300#12) State.reset) (fun t => (t.stack[0], t.sp)) = some (0x0200, 1) ∧
    see (exec (.ldDtReg 0x0#4) (regs [(0, 1)] State.reset)) (fun t => t.dt) = some 1 ∧
    see (exec (.ldStReg 0x0#4) (regs [(0, 1)] State.reset)) (fun t => t.st) = some 1 ∧
    see (exec (.ldKey 0x1#4) State.reset) (fun t => (t.wait, t.waitReg)) = some (true, 0x1) ∧
    see (exec .ret State.reset) (fun t => t.halt) = some true := by decide

/-- `OnlyRndReadsTheRandomPort`, `OnlyKeyInstructionsReadTheKeypad`: an instruction that is none of those. -/
theorem test_witness_other_instruction : (∀ x kk, Instr.cls ≠ .rnd x kk) ∧
    ∀ x, Instr.cls ≠ .skp x ∧ Instr.cls ≠ .sknp x ∧ Instr.cls ≠ .ldKey x := by simp

/-- `EveryStepKeepsTheInvariant`: a halted core meets it, and steps on. -/
theorem test_witness_inv_halted : halted.Inv ∧ see (step halted) (fun t => t.pc) = some 0x0202 :=
  ⟨⟨by decide, by decide, fun _ => ⟨by decide, by decide, .inl ⟨by decide, by decide⟩⟩, by decide, by decide⟩, by decide⟩

/-- `EveryStepKeepsTheInvariant`: a core that waits after `F10A` at 0x200 meets it. -/
theorem test_witness_inv_waiting : { at0 0xF10A#16 with
    pc := 0x0202, wait := true, waitReg := 0x1, loadable := false, ir := 0xF10A }.Inv :=
  ⟨by decide, by decide, fun h => absurd h (by decide), by decide, by decide⟩

end Sys2Proof.Tests
end

section
/-! Which instruction writes which store (10_state.md R39): every instruction but RET and CALL goes on to one update of the
state, whose field equations (`State.*_fields`) say which stores it leaves; RET and CALL also end in fault entry. -/

namespace Sys2Proof.Machine

/-- Settles O52, by the split over the instructions: RET and CALL end in two ways each, every other one in one way. -/
theorem eachStoreHasItsOnlyWriters : Obligations.EachStoreHasItsOnlyWriters := by
  intro ins s t h
  cases ins
  case ret => rcases execRet_cases h with ⟨_, rfl⟩ | ⟨_, rfl⟩ <;> simp
  case call => rcases execCall_cases h with ⟨_, rfl⟩ | ⟨_, rfl⟩ <;> simp
  all_goals (rw [next_eq h]; simp)

end Sys2Proof.Machine
end

section
/-! Memory and the fetch (20_memory.md R62 to R65, R72): a write is seen by every later read of its reduced address and by no
other, and a fetch is two such reads. Rests on `State.memRead_memWrite`, `State.storeFrom_spec` and `State.hiByte_wordAt`. -/

namespace Sys2Proof.Machine

/-- Settles O6, from `wordOfBytes_toNat`: each of the two addresses is reduced by itself. -/
theorem fetchIsBigEndianAndWraps : Obligations.FetchIsBigEndianAndWraps := by
  intro s a
  have hnext : reduceAddr (a + 1#16) = (a.toNat + 1) % 65536 % 4096 := by simp [reduceAddr, BitVec.toNat_add]
  simp only [State.wordAt, wordOfBytes_toNat, State.memRead, hnext]
  rfl

/-- Settles O28, from `State.memRead_memWrite` and `State.memWrite_wf`. -/
theorem readAfterWrite : Obligations.ReadAfterWrite := by
  intro s a a' b hwf
  refine ⟨fun heq => ?_, fun hne => ?_, State.memWrite_wf hwf a b, rfl⟩
  · exact (State.memRead_memWrite hwf a a' b).trans (if_pos heq.symm)
  · exact (State.memRead_memWrite hwf a a' b).trans (if_neg hne.symm)

/-- A fetch from a memory that holds `storeFrom`'s result sees the stored bytes: it is two reads, and each is one of
`State.storeFrom_spec`. -/
theorem State.fetchSees_storeFrom {s u : State} {bs : List Byte} {b : Nat → Byte} (hwf : s.mem.wf = true)
    (hlen : bs.length ≤ 4096) (hb : ∀ k (hk : k < bs.length), bs[k] = b k) (hu : u.mem = (s.storeFrom 0 bs).mem) :
    u.fetchSees s bs.length b := by
  obtain ⟨-, hstored, hframe⟩ := State.storeFrom_spec hwf 0 bs (by omega)
  simp only [Nat.zero_add] at hstored hframe
  have hread (a : Word) : u.memRead a = (s.storeFrom 0 bs).memRead a := by simp only [State.memRead, hu]
  have stored (a : Word) (k : Nat) (hk : k < bs.length) (e : reduceAddr (s.dataAddr k) = reduceAddr a) :
      u.memRead a = b k := by
    rw [hread, ← hb k hk, ← hstored k hk]
    simp only [State.memRead, e]
  have kept (a : Word) (hne : ∀ k, k < bs.length → reduceAddr (s.dataAddr k) ≠ reduceAddr a) : u.memRead a = s.memRead a :=
    (hread a).trans (hframe a fun k hk => (hne k hk).symm)
  intro a
  simp only [State.hiByte_wordAt, State.loByte_wordAt]
  exact ⟨stored a, stored (a + 1#16), kept a, kept (a + 1#16)⟩

/-- The step of an instruction that stores a list of bytes from `I` up goes on past it, and every fetch sees the bytes. -/
theorem step_fetchSees {s : State} {rest : List Event} {ins : Instr} {bs : List Byte} {b : Nat → Byte}
    (hev : s.nextEvent = (.step, rest)) (hrun : s.running = true) (hwf : s.mem.wf = true)
    (hdec : decodeWord (s.wordAt s.pc) = .ok ins)
    (hexec : ∀ f : State, f.v = s.v → exec ins f = .next (f.storeFrom 0 bs))
    (hlen : bs.length ≤ 4096) (hb : ∀ k (hk : k < bs.length), bs[k] = b k) :
    ∃ t, step s = .next t ∧ t.pc = s.pc + 2#16 ∧ ∀ u : State, u.mem = t.mem → u.fetchSees s bs.length b := by
  have hstep : step s = .next ((State.fetched { s with events := rest }).storeFrom 0 bs) :=
    calc step s = stepCore { s with events := rest } := step_nextEvent hev
      _ = exec ins (State.fetched { s with events := rest }) := stepCore_decoded hrun hdec
      _ = _ := hexec _ rfl
  exact ⟨_, hstep, by simp, fun u hu => State.fetchSees_storeFrom (s := State.fetched { s with events := rest }) hwf hlen hb hu⟩

/-- The values of V0 to Vx are read off the register file alone. -/
theorem State.regsUpTo_congr {s t : State} (h : s.v = t.v) (x : Nibble) : s.regsUpTo x = t.regsUpTo x := by
  simp only [State.regsUpTo, State.reg_congr h]

/-- The k-th of the three decimal digits of a byte (44_memory_transfer.md R185), by its power of ten. -/
theorem bcdDigits_getElem (b : Byte) (k : Nat) (hk : k < (bcdDigits b).length) :
    (bcdDigits b)[k] = BitVec.ofNat 8 (b.toNat / 10 ^ (2 - k) % 10) := by
  match k, hk with
  | 0, _ =>
    have hundreds : b.toNat / 100 % 10 = b.toNat / 100 := by omega
    simp [bcdDigits, hundreds]
  | 1, _ => simp [bcdDigits]
  | 2, _ => simp [bcdDigits]

/-- Settles O34: `step_fetchSees` with the register values, and with the three digits. -/
theorem fetchSeesStores : Obligations.FetchSeesStores := by
  intro s rest x hev hrun hwf
  refine ⟨fun hdec => ?_, fun hdec => ?_⟩
  · rw [← s.regsUpTo_length x]
    refine step_fetchSees hev hrun hwf hdec (fun f hf => ?_) ?_ (s.regsUpTo_getElem x)
    · rw [← State.regsUpTo_congr hf]; rfl
    · rw [s.regsUpTo_length x]; omega
  · refine step_fetchSees (bs := bcdDigits (s.reg x)) hev hrun hwf hdec (fun f hf => ?_) (by simp [bcdDigits])
      (bcdDigits_getElem _)
    rw [← State.reg_congr hf]; rfl

end Sys2Proof.Machine
end

section
/-! The decoder, the encoder and the opcode map (30_encoding.md R100 to R107, R112). The centre is `decodeWord_eq_ok_iff`: a
word decodes to an instruction iff it has the examined bits of the instruction's canonical word. -/

namespace Sys2Proof

/-! ## A word by its fields -/

/-- A word whose top nibble is `a` is the word of that nibble and its own address field. -/
theorem eq_nibbleAddr {w : Word} {a : Nibble} (hop : opField w = a) : w = nibbleAddr a (nnnField w) :=
  BitVec.eq_of_toNat_eq (by rw [nibbleAddr_toNat, ← hop, opField_toNat, nnnField_toNat]; omega)

/-- A word with a given top nibble and low byte is the word of those and its own `x` field. -/
theorem eq_nibblesByte {w : Word} {a : Nibble} {kk : Byte} (hop : opField w = a) (hkk : kkField w = kk) :
    w = nibblesByte a (xField w) kk :=
  BitVec.eq_of_toNat_eq (by rw [nibblesByte_toNat, ← hop, ← hkk, opField_toNat, xField_toNat, kkField_toNat]; omega)

/-- A word with a given top and bottom nibble is the word of those and its own `x` and `y` fields. -/
theorem eq_nibbles {w : Word} {a n : Nibble} (hop : opField w = a) (hn : nField w = n) :
    w = nibbles a (xField w) (yField w) n :=
  BitVec.eq_of_toNat_eq (by
    rw [nibbles_toNat, ← hop, ← hn, opField_toNat, xField_toNat, yField_toNat, nField_toNat]; omega)

theorem word_eq_iff_fields (w w' : Word) : w = w' ↔
    opField w = opField w' ∧ xField w = xField w' ∧ yField w = yField w' ∧ nField w = nField w' := by
  constructor
  · rintro rfl; exact ⟨rfl, rfl, rfl, rfl⟩
  · rintro ⟨hop, hx, hy, hn⟩
    calc w = nibbles (opField w') (xField w) (yField w) (nField w') := eq_nibbles hop hn
      _ = nibbles (opField w') (xField w') (yField w') (nField w') := by rw [hx, hy]
      _ = w' := (eq_nibbles rfl rfl).symm

theorem kkField_eq_iff (w w' : Word) : kkField w = kkField w' ↔ yField w = yField w' ∧ nField w = nField w' := by
  simp only [← BitVec.toNat_inj, kkField_toNat, yField_toNat, nField_toNat]; omega

/-! ## Words under the masks of the map and of the examined bits -/

/-- A mask of nibbles masks each field by itself. -/
theorem and_nibbles (w : Word) (a b c d : Nibble) : w &&& nibbles a b c d =
    nibbles (opField w &&& a) (xField w &&& b) (yField w &&& c) (nField w &&& d) := by
  have hop (m : Word) : opField (w &&& m) = opField w &&& opField m := BitVec.extractLsb'_and ..
  have hx (m : Word) : xField (w &&& m) = xField w &&& xField m := BitVec.extractLsb'_and ..
  have hy (m : Word) : yField (w &&& m) = yField w &&& yField m := BitVec.extractLsb'_and ..
  have hn (m : Word) : nField (w &&& m) = nField w &&& nField m := BitVec.extractLsb'_and ..
  simp [word_eq_iff_fields, hop, hx, hy, hn]

/-- An F in a mask keeps its field; a 0 clears it. -/
theorem nibble_and_F (a : Nibble) : a &&& 0xF#4 = a := BitVec.and_allOnes

theorem and_F000_eq_iff (w w' : Word) : w &&& 0xF000#16 = w' &&& 0xF000#16 ↔ opField w = opField w' := by
  have hmask : 0xF000#16 = nibbles 0xF#4 0x0#4 0x0#4 0x0#4 := rfl
  simp [hmask, and_nibbles, word_eq_iff_fields, nibble_and_F]

theorem and_F00F_eq_iff (w w' : Word) : w &&& 0xF00F#16 = w' &&& 0xF00F#16 ↔
    opField w = opField w' ∧ nField w = nField w' := by
  have hmask : 0xF00F#16 = nibbles 0xF#4 0x0#4 0x0#4 0xF#4 := rfl
  simp [hmask, and_nibbles, word_eq_iff_fields, nibble_and_F]

theorem and_F0FF_eq_iff (w w' : Word) : w &&& 0xF0FF#16 = w' &&& 0xF0FF#16 ↔
    opField w = opField w' ∧ kkField w = kkField w' := by
  have hmask : 0xF0FF#16 = nibbles 0xF#4 0x0#4 0xF#4 0xF#4 := rfl
  simp [hmask, and_nibbles, word_eq_iff_fields, kkField_eq_iff, nibble_and_F]

theorem and_FF0F_eq_iff (w w' : Word) : w &&& 0xFF0F#16 = w' &&& 0xFF0F#16 ↔
    opField w = opField w' ∧ xField w = xField w' ∧ nField w = nField w' := by
  have hmask : 0xFF0F#16 = nibbles 0xF#4 0xF#4 0x0#4 0xF#4 := rfl
  simp [hmask, and_nibbles, word_eq_iff_fields, nibble_and_F]

theorem and_FFF0_eq_iff (w w' : Word) : w &&& 0xFFF0#16 = w' &&& 0xFFF0#16 ↔
    opField w = opField w' ∧ xField w = xField w' ∧ yField w = yField w' := by
  have hmask : 0xFFF0#16 = nibbles 0xF#4 0xF#4 0xF#4 0x0#4 := rfl
  simp [hmask, and_nibbles, word_eq_iff_fields, nibble_and_F]

/-! ## Decoding inverts encoding (R107) -/

/-- The canonical word of an instruction decodes to it: the fields the decoder selects by and reads are the ones the
encoder wrote. -/
theorem decodeWord_encodeWord (ins : Instr) : decodeWord (encodeWord ins) = .ok ins := by
  cases ins
  case cls | ret => rfl
  all_goals simp [encodeWord, decodeWord, decodeFamily8, decodeFamilyE, decodeFamilyF]

/-- Settles O2: the two bytes make the canonical word again, and that word decodes to its instruction. -/
theorem decodeOfEncode : Obligations.DecodeOfEncode := by
  intro ins rest
  simp [decode, encode, wordOfBytes_bytes, decodeWord_encodeWord]

/-! ## The words of an instruction (R106) -/

/-- A word that has the examined bits of an instruction's canonical word. -/
def IsWordOf (w : Word) (ins : Instr) : Prop := encodeWord ins &&& examinedBits ins = w &&& examinedBits ins

/-- An instruction without don't-care bits has its canonical word only. -/
theorem isWordOf_iff_eq (w : Word) {ins : Instr} (hall : examinedBits ins = 0xFFFF#16) :
    IsWordOf w ins ↔ w = encodeWord ins := by
  have hand (v : Word) : v &&& 0xFFFF#16 = v := BitVec.and_allOnes
  rw [IsWordOf, hall, hand, hand, eq_comm]

/-- The decoder selects by the examined bits and reads its operands from them. -/
theorem decodeWord_of_isWordOf {w : Word} {ins : Instr} (h : IsWordOf w ins) : decodeWord w = .ok ins := by
  cases ins
  case cls =>
    obtain ⟨hop, hn⟩ : 0x0#4 = opField w ∧ 0x0#4 = nField w := (and_F00F_eq_iff ..).1 h
    simp [decodeWord, decodeFamily0, ← hop, ← hn]
  case ret =>
    obtain ⟨hop, hn⟩ : 0x0#4 = opField w ∧ 0xE#4 = nField w := (and_F00F_eq_iff ..).1 h
    simp [decodeWord, decodeFamily0, ← hop, ← hn]
  case seReg | sneReg =>
    obtain ⟨hop, hx, hy⟩ := (and_FFF0_eq_iff ..).1 h
    simp [decodeWord, ← hop, ← hx, ← hy, encodeWord]
  case shr | shl =>
    obtain ⟨hop, hx, hn⟩ := (and_FF0F_eq_iff ..).1 h
    simp [decodeWord, decodeFamily8, ← hop, ← hx, ← hn, encodeWord]
  all_goals
    rw [(isWordOf_iff_eq w rfl).1 h]
    exact decodeWord_encodeWord _

theorem isWordOf_of_decodeFamily0 {w : Word} {ins : Instr} (hop : opField w = 0x0#4) (h : decodeFamily0 w = .ok ins) :
    IsWordOf w ins := by
  unfold decodeFamily0 at h
  split at h <;> cases h
  all_goals exact (and_F00F_eq_iff ..).2 ⟨hop.symm, Eq.symm ‹_›⟩

theorem isWordOf_of_decodeFamily8 {w : Word} {ins : Instr} (hop : opField w = 0x8#4) (h : decodeFamily8 w = .ok ins) :
    IsWordOf w ins := by
  unfold decodeFamily8 at h
  split at h <;> cases h
  case h_7 hn | h_9 hn => exact (and_FF0F_eq_iff ..).2 (by simp [encodeWord, hop, hn])
  all_goals exact (isWordOf_iff_eq w rfl).2 (eq_nibbles hop ‹_›)

theorem isWordOf_of_decodeFamilyE {w : Word} {ins : Instr} (hop : opField w = 0xE#4) (h : decodeFamilyE w = .ok ins) :
    IsWordOf w ins := by
  unfold decodeFamilyE at h
  split at h <;> cases h
  all_goals exact (isWordOf_iff_eq w rfl).2 (eq_nibblesByte hop ‹_›)

theorem isWordOf_of_decodeFamilyF {w : Word} {ins : Instr} (hop : opField w = 0xF#4) (h : decodeFamilyF w = .ok ins) :
    IsWordOf w ins := by
  unfold decodeFamilyF at h
  split at h <;> cases h
  all_goals exact (isWordOf_iff_eq w rfl).2 (eq_nibblesByte hop ‹_›)

/-- What a word decodes to has that word. -/
theorem isWordOf_of_decodeWord {w : Word} {ins : Instr} (h : decodeWord w = .ok ins) : IsWordOf w ins := by
  unfold decodeWord at h
  split at h
  case h_1 hop => exact isWordOf_of_decodeFamily0 hop h
  case h_9 hop => exact isWordOf_of_decodeFamily8 hop h
  case h_15 hop => exact isWordOf_of_decodeFamilyE hop h
  case h_16 hop => exact isWordOf_of_decodeFamilyF hop h
  all_goals cases h
  case h_2 hop | h_3 hop | h_11 hop | h_12 hop => exact (isWordOf_iff_eq w rfl).2 (eq_nibbleAddr hop)
  case h_6 hop | h_10 hop => exact (and_FFF0_eq_iff ..).2 (by simp [encodeWord, hop])
  case h_14 hop => exact (isWordOf_iff_eq w rfl).2 (eq_nibbles hop rfl)
  all_goals exact (isWordOf_iff_eq w rfl).2 (eq_nibblesByte ‹_› rfl)

/-- What the decoder answers, said once for all instructions (R106). -/
theorem decodeWord_eq_ok_iff (w : Word) (ins : Instr) : decodeWord w = .ok ins ↔ IsWordOf w ins :=
  ⟨isWordOf_of_decodeWord, decodeWord_of_isWordOf⟩

/-- Settles O5, both parts from `decodeWord_eq_ok_iff`: the words of an instruction are those that agree on its examined
bits. -/
theorem aliasesDecodeAlike : Obligations.AliasesDecodeAlike := by
  intro w ins h
  have hw : IsWordOf w ins := (decodeWord_eq_ok_iff w ins).1 h
  exact ⟨hw, fun w' hagree => (decodeWord_eq_ok_iff w' ins).2 (hw.trans hagree.symm)⟩

/-! ## The unknown words (R112) -/

/-- What R112's table says of a decoder's answer: an unknown word is refused by its own value, a known one decodes. -/
def FollowsTable (known : Bool) (w : Word) (answer : Except DecodeError Instr) : Prop :=
  (known = false → answer = .error (.unknownOpcode w)) ∧ (known = true → ∃ ins, answer = .ok ins)

theorem followsTable_ok (w : Word) (ins : Instr) : FollowsTable true w (.ok ins) := by simp [FollowsTable]

theorem followsTable_error (w : Word) : FollowsTable false w (.error (.unknownOpcode w)) := by simp [FollowsTable]

theorem decodeFamily0_followsTable (w : Word) : FollowsTable (family0Known (nField w).toNat) w (decodeFamily0 w) := by
  unfold decodeFamily0
  split
  case h_3 =>
    have hunknown : family0Known (nField w).toNat = false := by
      simp_all [family0Known, ← BitVec.toNat_inj]; omega
    rw [hunknown]; exact followsTable_error w
  all_goals rename_i hn; rw [hn]; exact followsTable_ok ..

theorem decodeFamily8_followsTable (w : Word) : FollowsTable (family8Known (nField w).toNat) w (decodeFamily8 w) := by
  unfold decodeFamily8
  split
  case h_10 =>
    have hunknown : family8Known (nField w).toNat = false := by
      simp_all [family8Known, ← BitVec.toNat_inj]; omega
    rw [hunknown]; exact followsTable_error w
  all_goals rename_i hn; rw [hn]; exact followsTable_ok ..

theorem decodeFamilyE_followsTable (w : Word) : FollowsTable (familyEKnown (kkField w).toNat) w (decodeFamilyE w) := by
  unfold decodeFamilyE
  split
  case h_3 =>
    have hunknown : familyEKnown (kkField w).toNat = false := by
      simp_all [familyEKnown, ← BitVec.toNat_inj]; omega
    rw [hunknown]; exact followsTable_error w
  all_goals rename_i hkk; rw [hkk]; exact followsTable_ok ..

theorem decodeFamilyF_followsTable (w : Word) : FollowsTable (familyFKnown (kkField w).toNat) w (decodeFamilyF w) := by
  unfold decodeFamilyF
  split
  case h_10 =>
    have hunknown : familyFKnown (kkField w).toNat = false := by
      simp_all [familyFKnown, ← BitVec.toNat_inj]; omega
    rw [hunknown]; exact followsTable_error w
  all_goals rename_i hkk; rw [hkk]; exact followsTable_ok ..

/-- The two levels of the decoder follow the table: the families with a secondary selector do, the other twelve accept every
word, and there is no seventeenth family. -/
theorem decodeWord_followsTable (w : Word) : FollowsTable (wordDefined w) w (decodeWord w) := by
  unfold decodeWord
  split
  case h_1 hop => simpa [wordDefined_fields, hop] using decodeFamily0_followsTable w
  case h_9 hop => simpa [wordDefined_fields, hop] using decodeFamily8_followsTable w
  case h_15 hop => simpa [wordDefined_fields, hop] using decodeFamilyE_followsTable w
  case h_16 hop => simpa [wordDefined_fields, hop] using decodeFamilyF_followsTable w
  case h_17 => exact absurd (nibble_cases (opField w)) (by simp_all)
  all_goals rename_i hop; simpa [wordDefined_fields, hop] using followsTable_ok ..

/-- Settles O3: it is `decodeWord_followsTable`, for every word. -/
theorem unknownWordsAreTheTables : Obligations.UnknownWordsAreTheTables := decodeWord_followsTable

/-- A word decodes iff R112's table does not have it. -/
theorem decodes_iff_wordDefined (w : Word) : (∃ ins, decodeWord w = .ok ins) ↔ wordDefined w = true := by
  obtain ⟨hunknown, hknown⟩ := decodeWord_followsTable w
  refine ⟨fun ⟨ins, hins⟩ => ?_, hknown⟩
  by_contra hdef
  have herr := hunknown (Bool.eq_false_iff.2 hdef)
  simp [herr] at hins

/-! ## The opcode map (R107)

Each mask selects by the top nibble and, in the families with a secondary selector, by the low nibble or the low byte, as
R112's table does. -/

theorem and_F000_eq_value_iff {v : Word} (hv : v &&& 0xF000#16 = v) (w : Word) :
    w &&& 0xF000#16 = v ↔ w.toNat / 4096 = v.toNat / 4096 := by
  rw [← opField_toNat, ← opField_toNat, BitVec.toNat_inj, ← and_F000_eq_iff, hv]

theorem and_F00F_eq_value_iff {v : Word} (hv : v &&& 0xF00F#16 = v) (w : Word) :
    w &&& 0xF00F#16 = v ↔ w.toNat / 4096 = v.toNat / 4096 ∧ w.toNat % 16 = v.toNat % 16 := by
  simp only [← opField_toNat, ← nField_toNat, BitVec.toNat_inj]
  rw [← and_F00F_eq_iff, hv]

theorem and_F0FF_eq_value_iff {v : Word} (hv : v &&& 0xF0FF#16 = v) (w : Word) :
    w &&& 0xF0FF#16 = v ↔ w.toNat / 4096 = v.toNat / 4096 ∧ w.toNat % 256 = v.toNat % 256 := by
  simp only [← opField_toNat, ← kkField_toNat, BitVec.toNat_inj]
  rw [← and_F0FF_eq_iff, hv]

theorem opcodeRows0_cover_iff (w : Word) : (∃ r ∈ opcodeRows0, r.covers w = true) ↔
    w.toNat / 4096 = 0x0 ∧ family0Known w.toNat = true ∨ 0x1 ≤ w.toNat / 4096 ∧ w.toNat / 4096 ≤ 0x7 := by
  simp [opcodeRows0, OpcodeRow.covers, and_F000_eq_value_iff, and_F00F_eq_value_iff, family0Known]
  omega

theorem opcodeRows8_cover_iff (w : Word) : (∃ r ∈ opcodeRows8, r.covers w = true) ↔
    w.toNat / 4096 = 0x8 ∧ family8Known w.toNat = true := by
  simp [opcodeRows8, OpcodeRow.covers, and_F00F_eq_value_iff, family8Known]
  omega

theorem opcodeRows9_cover_iff (w : Word) : (∃ r ∈ opcodeRows9, r.covers w = true) ↔
    0x9 ≤ w.toNat / 4096 ∧ w.toNat / 4096 ≤ 0xD ∨ w.toNat / 4096 = 0xE ∧ familyEKnown w.toNat = true := by
  simp [opcodeRows9, OpcodeRow.covers, and_F000_eq_value_iff, and_F0FF_eq_value_iff, familyEKnown]
  omega

theorem opcodeRowsF_cover_iff (w : Word) : (∃ r ∈ opcodeRowsF, r.covers w = true) ↔
    w.toNat / 4096 = 0xF ∧ familyFKnown w.toNat = true := by
  simp [opcodeRowsF, OpcodeRow.covers, and_F0FF_eq_value_iff, familyFKnown]
  omega

/-- The rows cover the words that R112's table leaves. -/
theorem opcodeMap_cover_iff (w : Word) : (∃ r ∈ opcodeMap, r.covers w = true) ↔ wordDefined w = true := by
  simp only [opcodeMap, List.mem_append, or_and_right, exists_or, opcodeRows0_cover_iff, opcodeRows8_cover_iff,
    opcodeRows9_cover_iff, opcodeRowsF_cover_iff]
  unfold wordDefined
  have hlt : w.toNat / 4096 < 16 := by omega
  generalize w.toNat / 4096 = q at hlt ⊢
  interval_cases q <;> simp

/-- Two rows that want the same values in the bits both their masks have are one row. -/
theorem opcodeMap_rows_differ : ∀ r ∈ opcodeMap, ∀ r' ∈ opcodeMap,
    r.value &&& r'.mask = r'.value &&& r.mask → r = r' := by decide

/-- Two rows that cover one word want the word's own values in the bits both their masks have. -/
theorem row_unique {w : Word} {r r' : OpcodeRow} (hr : r ∈ opcodeMap) (hr' : r' ∈ opcodeMap)
    (hw : r.covers w = true) (hw' : r'.covers w = true) : r = r' := by
  rw [OpcodeRow.covers, beq_iff_eq] at hw hw'
  refine opcodeMap_rows_differ r hr r' hr' ?_
  calc r.value &&& r'.mask = w &&& r.mask &&& r'.mask := by rw [hw]
    _ = w &&& r'.mask &&& r.mask := by rw [BitVec.and_assoc, BitVec.and_comm r.mask, BitVec.and_assoc]
    _ = r'.value &&& r.mask := by rw [hw']

/-- Settles O4: decoding and being covered are both being known to R112's table, and `row_unique`. -/
theorem opcodeMapDecidesDecoding : Obligations.OpcodeMapDecidesDecoding :=
  ⟨rfl, fun w => ⟨(decodes_iff_wordDefined w).trans (opcodeMap_cover_iff w).symm,
    fun _ hr _ hr' => row_unique hr hr'⟩⟩

end Sys2Proof
end

section
/-! Control flow (40_control_flow.md R130 to R137): each instruction's decoder test, by the nibbles its mask keeps, and its
effect. The stack is taken by how many addresses it holds: `State.pop` and `State.push` answer some state or none by SP. -/

namespace Sys2Proof

/-- The decoder test of an instruction that the top nibble alone selects. -/
theorem encodedBy_F000 {value : Word} {ins : Word → Instr}
    (h : ∀ w, opField w = opField value → decodeWord w = .ok (ins w)) : EncodedBy 0xF000#16 value ins :=
  fun w hw => h w (opField_of_mask hw rfl)

/-- The decoder test of an instruction that the top and the bottom nibble select. -/
theorem encodedBy_F00F {value : Word} {ins : Word → Instr}
    (h : ∀ w, opField w = opField value → nField w = nField value → decodeWord w = .ok (ins w)) :
    EncodedBy 0xF00F#16 value ins :=
  fun w hw => h w (opField_of_mask hw rfl) (nField_of_mask hw rfl)

end Sys2Proof

namespace Sys2Proof.Machine

/-- `zext_16` keeps the number. -/
@[simp] theorem zextAddr_toNat (nnn : Addr) : (zextAddr nnn).toNat = nnn.toNat :=
  BitVec.toNat_setWidth_of_le (by decide)

/-! ## The stack by the number of addresses it holds (10_state.md R26) -/

theorem State.pop_of_sp_eq_succ {s : State} {k : Fin 16} (hsp : s.sp.val = k.val + 1) :
    s.pop = some (s.stack[k.val], { s with sp := k.castSucc }) := by
  rcases s.pop_cases with ⟨_, hpop⟩ | ⟨hempty, _⟩
  · simp only [hpop, hsp, Nat.add_sub_cancel]; rfl
  · omega

theorem State.pop_of_sp_eq_zero {s : State} (hsp : s.sp.val = 0) : s.pop = none := by
  rcases s.pop_cases with ⟨hheld, _⟩ | ⟨_, hpop⟩
  · omega
  · exact hpop

theorem State.push_of_sp_eq {s : State} {k : Fin 16} (hsp : s.sp.val = k.val) (a : Word) :
    s.push a = some { s with stack := s.stack.set k.val a, sp := k.succ } := by
  rcases s.push_cases a with ⟨_, hpush⟩ | ⟨hfull, _⟩
  · simp only [hpush, hsp]; rfl
  · omega

theorem State.push_of_sp_eq_sixteen {s : State} (hsp : s.sp.val = 16) (a : Word) : s.push a = none := by
  rcases s.push_cases a with ⟨hroom, _⟩ | ⟨_, hpush⟩
  · omega
  · exact hpush

/-- Settles O13: RET goes on with what `pop` answers, and raises when it answers none. -/
theorem retPopsOrUnderflows : Obligations.RetPopsOrUnderflows := by
  refine ⟨encodedBy_F00F fun w (hop : opField w = 0x0#4) (hn : nField w = 0xE#4) => ?_,
    fun s => ⟨fun k hsp => ?_, fun hsp => ?_⟩⟩
  · simp [decodeWord, decodeFamily0, hop, hn]
  · simp only [exec, execRet, State.pop_of_sp_eq_succ hsp]; rfl
  · simp only [exec, execRet, State.pop_of_sp_eq_zero hsp]; rfl

/-- Settles O14: CALL goes on with what `push` of `pc` answers, and raises when it answers none. -/
theorem callPushesOrOverflows : Obligations.CallPushesOrOverflows := by
  refine ⟨encodedBy_F000 fun w (hop : opField w = 0x2#4) => ?_, fun nnn s => ⟨fun k hsp => ?_, fun hsp => ?_⟩⟩
  · simp [decodeWord, hop]
  · have hcall : exec (.call nnn) s =
        .next { s with pc := zextAddr nnn, sp := k.succ, stack := s.stack.set k.val s.pc } := by
      simp only [exec, execCall, State.push_of_sp_eq hsp]; rfl
    refine ⟨_, hcall, zextAddr_toNat nnn, rfl, Vector.getElem_set_self .., fun j hj => ?_, rfl⟩
    exact Vector.getElem_set_ne k.isLt j.isLt (Fin.val_ne_of_ne hj.symm)
  · simp only [exec, execCall, State.push_of_sp_eq_sixteen hsp]; rfl

/-! ## The screen and the jump -/

/-- Settles O12, from `Framebuffer.pixel_clear`. -/
theorem clsClearsTheFramebuffer : Obligations.ClsClearsTheFramebuffer := by
  refine ⟨encodedBy_F00F fun w (hop : opField w = 0x0#4) (hn : nField w = 0x0#4) => ?_, fun s => ?_⟩
  · simp [decodeWord, decodeFamily0, hop, hn]
  · exact ⟨s.setFb Framebuffer.clear, rfl, Framebuffer.pixel_clear, rfl⟩

/-- Settles O16, from `zextAddr_toNat`. -/
theorem jumpSetsThePc : Obligations.JumpSetsThePc := by
  refine ⟨encodedBy_F000 fun w (hop : opField w = 0x1#4) => ?_, fun nnn s => ?_⟩
  · simp [decodeWord, hop]
  · exact ⟨s.setPc (zextAddr nnn), rfl, zextAddr_toNat nnn, rfl⟩

/-! ## The skips (R140) -/

theorem State.skipIf_eq (s : State) (b : Bool) : s.skipIf b = { s with pc := if b then s.pc + 2#16 else s.pc } := by
  cases b <;> rfl

/-- SE: skip when the two values are equal. -/
theorem State.skipIf_decide_eq (s : State) (a b : Byte) :
    s.skipIf (decide (a = b)) = { s with pc := if a = b then s.pc + 2#16 else s.pc } := by
  simp only [State.skipIf_eq, decide_eq_true_eq]

/-- SNE: skip when the two values differ. -/
theorem State.skipIf_decide_ne (s : State) (a b : Byte) :
    s.skipIf (decide (a ≠ b)) = { s with pc := if a = b then s.pc else s.pc + 2#16 } := by
  simp only [State.skipIf_eq, decide_eq_true_eq, ite_not]

/-- Settles O18: both compare Vx with the immediate. -/
theorem skipsOnAnImmediate : Obligations.SkipsOnAnImmediate := by
  refine ⟨encodedBy_F000 fun w (hop : opField w = 0x3#4) => ?_, encodedBy_F000 fun w (hop : opField w = 0x4#4) => ?_,
    fun x kk s => ⟨?_, ?_⟩⟩
  · simp [decodeWord, hop]
  · simp [decodeWord, hop]
  · exact congrArg Host.Outcome.next (s.skipIf_decide_eq (s.reg x) kk)
  · exact congrArg Host.Outcome.next (s.skipIf_decide_ne (s.reg x) kk)

/-- Settles O19: both compare Vx with Vy, and a register equals itself. -/
theorem skipsOnTwoRegisters : Obligations.SkipsOnTwoRegisters := by
  have hse (x y : Nibble) (s : State) :
      exec (.seReg x y) s = .next { s with pc := if s.reg x = s.reg y then s.pc + 2#16 else s.pc } :=
    congrArg Host.Outcome.next (s.skipIf_decide_eq (s.reg x) (s.reg y))
  have hsne (x y : Nibble) (s : State) :
      exec (.sneReg x y) s = .next { s with pc := if s.reg x = s.reg y then s.pc else s.pc + 2#16 } :=
    congrArg Host.Outcome.next (s.skipIf_decide_ne (s.reg x) (s.reg y))
  refine ⟨encodedBy_F000 fun w (hop : opField w = 0x5#4) => ?_, encodedBy_F000 fun w (hop : opField w = 0x9#4) => ?_,
    fun x y s => ⟨hse x y s, hsne x y s, ?_, ?_⟩⟩
  · simp [decodeWord, hop]
  · simp [decodeWord, hop]
  · rw [hse, if_pos rfl]
  · rw [hsne, if_pos rfl]

end Sys2Proof.Machine
end

section
/-! Register and ALU instructions (41_register_ops.md R150 to R162). Each goes on to `setReg`, or to `setResultAndFlag` when it
writes VF; one lemma for each of the two says what that leaves in the registers and elsewhere, and what remains of each
instruction is the arithmetic of one byte. -/

namespace Sys2Proof

/-- The decoder test of an instruction of family 8. -/
theorem encodedBy_family8 {value : Word} {ins : Word → Instr} (hvalue : opField value = 0x8#4)
    (h : ∀ w, nField w = nField value → decodeFamily8 w = .ok (ins w)) : EncodedBy 0xF00F#16 value ins :=
  encodedBy_F00F fun w hop hn => by simp only [decodeWord, hop, hvalue, h w hn]

end Sys2Proof

namespace Sys2Proof.Machine

/-! ## What the two register updates leave -/

/-- An instruction that goes on to `setReg` writes one register and nothing else. -/
theorem exec_setReg_effect {ins : Instr} {s : State} {x : Nibble} {r : Byte} (h : exec ins s = .next (s.setReg x r)) :
    ∃ t, exec ins s = .next t ∧ t.reg x = r ∧ (∀ z, z ≠ x → t.reg z = s.reg z) ∧ t = { s with v := t.v } :=
  ⟨_, h, by simp, fun z hz => by simp [hz], rfl⟩

/-- An instruction that goes on to `setResultAndFlag` writes VF and one more register, and nothing else (R161). -/
theorem exec_setResultAndFlag_effect {ins : Instr} {s : State} {x : Nibble} {r : Byte} {flag : Bool}
    (h : exec ins s = .next (s.setResultAndFlag x r flag)) :
    ∃ t, exec ins s = .next t ∧ (x ≠ 0xF#4 → t.reg x = r) ∧ t.reg 0xF#4 = flagByte flag ∧
      (∀ z, z ≠ x → z ≠ 0xF#4 → t.reg z = s.reg z) ∧ t = { s with v := t.v } :=
  ⟨_, h, fun hx => by simp [hx], by simp, fun z hzx hzF => by simp [hzx, hzF], rfl⟩

/-! ## The arithmetic and the flags of R156 to R160 as numbers -/

/-- The difference of two bytes is the difference of their numbers modulo 256, in 0 to 255. -/
theorem byte_sub_toInt (a b : Byte) : ((a - b).toNat : Int) = (a.toNat - b.toNat : Int) % 256 := by
  rw [BitVec.toNat_sub]
  omega

theorem byte_shiftRight_one_toNat (a : Byte) : (a >>> 1).toNat = a.toNat / 2 := by
  rw [BitVec.toNat_ushiftRight, Nat.shiftRight_one]

theorem byte_shiftLeft_one_toNat (a : Byte) : (a <<< 1).toNat = a.toNat * 2 % 256 := by
  rw [BitVec.toNat_shiftLeft, Nat.shiftLeft_eq, pow_one]

theorem flagByte_carryOf_toNat (a b : Byte) :
    (flagByte (carryOf a b)).toNat = if a.toNat + b.toNat > 255 then 1 else 0 := by
  simp only [flagByte_toNat, carryOf, decide_eq_true_eq, gt_iff_lt]

theorem flagByte_notBorrowOf_toNat (a b : Byte) :
    (flagByte (notBorrowOf a b)).toNat = if a.toNat ≥ b.toNat then 1 else 0 := by
  simp only [flagByte_toNat, notBorrowOf, decide_eq_true_eq, ge_iff_le]

/-- A flag that is bit `k` of a byte. -/
theorem flagByte_getLsbD_toNat (a : Byte) (k : Nat) : (flagByte (a.getLsbD k)).toNat = a.toNat / 2 ^ k % 2 := by
  rw [flagByte_toNat, BitVec.getLsbD, Nat.testBit_eq_decide_div_mod_eq]
  rcases Nat.mod_two_eq_zero_or_one (a.toNat / 2 ^ k) with hbit | hbit <;> simp [hbit]

theorem flagByte_lowBitOf_toNat (a : Byte) : (flagByte (lowBitOf a)).toNat = a.toNat % 2 := by
  rw [lowBitOf, flagByte_getLsbD_toNat, pow_zero, Nat.div_one]

theorem flagByte_highBitOf_toNat (a : Byte) : (flagByte (highBitOf a)).toNat = a.toNat / 128 := by
  rw [highBitOf, flagByte_getLsbD_toNat]
  omega

/-! ## The instructions that write VF -/

/-- Settles O22: a result and the carry. -/
theorem addSetsSumAndCarry : Obligations.AddSetsSumAndCarry := by
  refine ⟨encodedBy_family8 rfl fun w (hn : nField w = 0x4#4) => ?_, fun x y s => ?_⟩
  · simp [decodeFamily8, hn]
  · obtain ⟨t, hexec, hresult, hflag, hframe⟩ := exec_setResultAndFlag_effect (ins := .addReg x y) (s := s) rfl
    refine ⟨t, hexec, fun hx => ?_, ?_, hframe⟩
    · rw [hresult hx, BitVec.toNat_add]
    · rw [hflag, flagByte_carryOf_toNat]

/-- An instruction that subtracts `b` from `a` into Vx: the difference and not-borrow (R157). -/
theorem exec_difference_effect {ins : Instr} {s : State} {x : Nibble} {a b : Byte}
    (h : exec ins s = .next (s.setResultAndFlag x (a - b) (notBorrowOf a b))) :
    ∃ t, exec ins s = .next t ∧ (x ≠ 0xF#4 → ((t.reg x).toNat : Int) = (a.toNat - b.toNat : Int) % 256) ∧
      (t.reg 0xF#4).toNat = (if a.toNat ≥ b.toNat then 1 else 0) ∧
      (∀ z, z ≠ x → z ≠ 0xF#4 → t.reg z = s.reg z) ∧ t = { s with v := t.v } := by
  obtain ⟨t, hexec, hresult, hflag, hframe⟩ := exec_setResultAndFlag_effect h
  refine ⟨t, hexec, fun hx => ?_, ?_, hframe⟩
  · rw [hresult hx, byte_sub_toInt]
  · rw [hflag, flagByte_notBorrowOf_toNat]

/-- Settles O23: SUB subtracts Vy from Vx, SUBN Vx from Vy. -/
theorem subtractsSetDifferenceAndNotBorrow : Obligations.SubtractsSetDifferenceAndNotBorrow := by
  refine ⟨encodedBy_family8 rfl fun w (hn : nField w = 0x5#4) => ?_,
    encodedBy_family8 rfl fun w (hn : nField w = 0x7#4) => ?_, fun x y s => ⟨?_, ?_⟩⟩
  · simp [decodeFamily8, hn]
  · simp [decodeFamily8, hn]
  · exact exec_difference_effect (a := s.reg x) (b := s.reg y) rfl
  · exact exec_difference_effect (a := s.reg y) (b := s.reg x) rfl

/-- Settles O24: a shift by one place and the bit shifted out; `y` is no operand. -/
theorem shiftsByOnePlace : Obligations.ShiftsByOnePlace := by
  refine ⟨encodedBy_family8 rfl fun w (hn : nField w = 0x6#4) => ?_,
    encodedBy_family8 rfl fun w (hn : nField w = 0xE#4) => ?_, fun x s => ⟨?_, ?_⟩⟩
  · simp [decodeFamily8, hn]
  · simp [decodeFamily8, hn]
  · obtain ⟨t, hexec, hresult, hflag, hframe⟩ := exec_setResultAndFlag_effect (ins := .shr x) (s := s) rfl
    refine ⟨t, hexec, fun hx => ?_, ?_, hframe⟩
    · rw [hresult hx, byte_shiftRight_one_toNat]
    · rw [hflag, flagByte_lowBitOf_toNat]
  · obtain ⟨t, hexec, hresult, hflag, hframe⟩ := exec_setResultAndFlag_effect (ins := .shl x) (s := s) rfl
    refine ⟨t, hexec, fun hx => ?_, ?_, hframe⟩
    · rw [hresult hx, byte_shiftLeft_one_toNat]
    · rw [hflag, flagByte_highBitOf_toNat]

/-! ## The instructions that write one register -/

/-- Settles O20: one register is written, with the immediate, the wrapped sum or Vy. -/
theorem loadsAndAddImmediate : Obligations.LoadsAndAddImmediate := by
  refine ⟨encodedBy_F000 fun w (hop : opField w = 0x6#4) => ?_, encodedBy_F000 fun w (hop : opField w = 0x7#4) => ?_,
    encodedBy_family8 rfl fun w (hn : nField w = 0x0#4) => ?_, fun x y kk s => ⟨?_, ?_, ?_⟩⟩
  · simp [decodeWord, hop]
  · simp [decodeWord, hop]
  · simp [decodeFamily8, hn]
  · exact exec_setReg_effect rfl
  · obtain ⟨t, hexec, hsum, hframe⟩ := exec_setReg_effect (ins := .addByte x kk) (s := s) rfl
    exact ⟨t, hexec, by rw [hsum, BitVec.toNat_add], hframe⟩
  · exact exec_setReg_effect rfl

/-- Settles O21: one register is written, each of its bits by the operation on bits. -/
theorem bitwiseOperations : Obligations.BitwiseOperations := by
  refine ⟨encodedBy_family8 rfl fun w (hn : nField w = 0x1#4) => ?_,
    encodedBy_family8 rfl fun w (hn : nField w = 0x2#4) => ?_,
    encodedBy_family8 rfl fun w (hn : nField w = 0x3#4) => ?_, fun x y s => ⟨?_, ?_, ?_⟩⟩
  · simp [decodeFamily8, hn]
  · simp [decodeFamily8, hn]
  · simp [decodeFamily8, hn]
  · obtain ⟨t, hexec, hor, hframe⟩ := exec_setReg_effect (ins := .orReg x y) (s := s) rfl
    exact ⟨t, hexec, fun k => by rw [hor, BitVec.getLsbD_or], hframe⟩
  · obtain ⟨t, hexec, hand, hframe⟩ := exec_setReg_effect (ins := .andReg x y) (s := s) rfl
    exact ⟨t, hexec, fun k => by rw [hand, BitVec.getLsbD_and], hframe⟩
  · obtain ⟨t, hexec, hxor, hframe⟩ := exec_setReg_effect (ins := .xorReg x y) (s := s) rfl
    exact ⟨t, hexec, fun k => by rw [hxor, BitVec.getLsbD_xor], hframe⟩

end Sys2Proof.Machine
end

section
/-! The random byte (42_random.md R170, R171): a draw takes the environment's next byte, or else the free value, and is seen in
the model's own `rnd` and `draws` only; RND then writes one register. -/

namespace Sys2Proof.Machine

/-- A draw changes the model's own queue and counter of draws (log 3) and nothing else. -/
theorem State.afterDraw_frame (s : State) :
    s.afterDraw = { s with rnd := s.afterDraw.rnd, draws := s.afterDraw.draws } := by
  rcases s.draw_cases with ⟨_, _, _, _, hsupplied⟩ | ⟨_, _, hfree⟩
  · rw [hsupplied]
  · rw [hfree]

/-- RND goes on to one register write, in the state after the draw. -/
theorem exec_rnd_eq (x : Nibble) (kk : Byte) (s : State) :
    exec (.rnd x kk) s = .next (s.afterDraw.setReg x (s.randomByte &&& kk)) := rfl

/-- Settles O25: the draw leaves every register, the write changes Vx alone, and with `b` first in the queue the draw
answers `b`. -/
theorem randomByteIsMasked : Obligations.RandomByteIsMasked := by
  refine ⟨encodedBy_F000 fun w (hop : opField w = 0xC#4) => ?_, fun x kk s => ⟨?_, fun b later => ?_⟩⟩
  · simp [decodeWord, hop]
  · have hmasked : (s.afterDraw.setReg x (s.randomByte &&& kk)).reg x = s.randomByte &&& kk := by simp
    refine ⟨_, exec_rnd_eq x kk s, hmasked, ?_, fun z hz => by simp [hz], ?_⟩
    · rw [hmasked, BitVec.and_assoc, BitVec.and_not_self]
      exact BitVec.and_zero
    · rw [s.afterDraw_frame]; rfl
  · have hdrawn : State.randomByte { s with rnd := b :: later } = b := rfl
    exact ⟨_, exec_rnd_eq x kk _, by simp [hdrawn], rfl⟩

end Sys2Proof.Machine
end

section
/-! The index register (43_index_register.md R175 to R177). Each instruction goes on to `setIndex`, which writes `I` and nothing
else; what remains of each is its value as a number. -/

namespace Sys2Proof

/-- The decoder test of an instruction of family F. -/
theorem encodedBy_familyF {value : Word} {ins : Word → Instr} (hvalue : opField value = 0xF#4)
    (h : ∀ w, kkField w = kkField value → decodeFamilyF w = .ok (ins w)) : EncodedBy 0xF0FF#16 value ins := by
  intro w hw
  have hop : opField w = opField value := opField_of_mask hw rfl
  have hkk : kkField w = kkField value := kkField_of_mask hw rfl
  simp only [decodeWord, hop, hvalue, h w hkk]

end Sys2Proof

namespace Sys2Proof.Machine

/-- `zext_16` of a byte keeps the number. -/
@[simp] theorem zextByte_toNat (b : Byte) : (zextByte b).toNat = b.toNat :=
  BitVec.toNat_setWidth_of_le (by decide)

/-- A glyph's address is the formula of R177 for the whole byte: at most 0x054B, so nothing wraps. -/
theorem glyphAddr_toNat (b : Byte) : (glyphAddr b).toNat = 0x0050 + 5 * b.toNat := by
  rw [glyphAddr, BitVec.toNat_ofNat, Config.fontBase, Config.glyphBytes]
  omega

/-- An instruction that goes on to `setIndex` writes `I` and nothing else, VF included. -/
theorem exec_setIndex_effect {ins : Instr} {s : State} {a : Word} (h : exec ins s = .next (s.setIndex a)) :
    ∃ t, exec ins s = .next t ∧ t.index.toNat = a.toNat ∧ t = { s with index := t.index } :=
  ⟨s.setIndex a, h, rfl, rfl⟩

/-- Settles O26: `I` becomes the zero-extended address. -/
theorem loadIndexImmediate : Obligations.LoadIndexImmediate := by
  refine ⟨encodedBy_F000 fun w (hop : opField w = 0xA#4) => ?_, fun nnn s => ?_⟩
  · simp [decodeWord, hop]
  · obtain ⟨t, hexec, hindex, hframe⟩ := exec_setIndex_effect (ins := .ldI nnn) (s := s) rfl
    exact ⟨t, hexec, by rw [hindex, zextAddr_toNat], hframe⟩

/-- Settles O27: `I` becomes the wrapped sum, or the glyph's address. -/
theorem indexRegisterArithmetic : Obligations.IndexRegisterArithmetic := by
  refine ⟨encodedBy_familyF rfl fun w (hkk : kkField w = 0x1E#8) => ?_,
    encodedBy_familyF rfl fun w (hkk : kkField w = 0x29#8) => ?_, fun x s => ⟨?_, ?_⟩⟩
  · simp [decodeFamilyF, hkk]
  · simp [decodeFamilyF, hkk]
  · obtain ⟨t, hexec, hindex, hframe⟩ := exec_setIndex_effect (ins := .addI x) (s := s) rfl
    exact ⟨t, hexec, by rw [hindex, BitVec.toNat_add, zextByte_toNat], hframe⟩
  · obtain ⟨t, hexec, hindex, hframe⟩ := exec_setIndex_effect (ins := .ldFont x) (s := s) rfl
    exact ⟨t, hexec, by rw [hindex, glyphAddr_toNat], hframe⟩

end Sys2Proof.Machine
end

section
/-! BCD and bulk register transfer (44_memory_transfer.md R185 to R189). LD B and LD [I],Vx go on to `storeFrom` with a list of
bytes, LD Vx,[I] to `loadEach`; one lemma for each of the two says what that leaves, and store-then-load follows from the two
statements on the bulk transfers. -/

namespace Sys2Proof.Machine

/-! ## The stores -/

/-- `storeFrom` writes memory and nothing else. -/
theorem State.storeFrom_frame (s : State) (k : Nat) (bs : List Byte) :
    s.storeFrom k bs = { s with mem := (s.storeFrom k bs).mem } := by
  induction bs generalizing s k with
  | nil => rfl
  | cons b bs ih => exact ih (s.memWrite (s.dataAddr k) b) (k + 1)

/-- An instruction that goes on to `storeFrom` leaves the bytes at `I`, `I + 1`, ... and writes no other byte and nothing
else. -/
theorem exec_storeFrom_effect {ins : Instr} {s : State} {bs : List Byte} (hwf : s.mem.wf = true)
    (h : exec ins s = .next (s.storeFrom 0 bs)) (hlen : bs.length ≤ 4096) :
    ∃ t, exec ins s = .next t ∧
      (∀ j (hj : j < bs.length), t.memRead (s.dataAddr j) = bs[j]) ∧
      (∀ a, (∀ j, j < bs.length → reduceAddr a ≠ reduceAddr (s.dataAddr j)) → t.memRead a = s.memRead a) ∧
      t = { s with mem := t.mem } := by
  obtain ⟨-, hstored, hkept⟩ := State.storeFrom_spec hwf 0 bs (by omega)
  simp only [Nat.zero_add] at hstored hkept
  exact ⟨_, h, hstored, hkept, s.storeFrom_frame 0 bs⟩

/-- Settles O30: the three bytes of `bcdDigits` are stored, and none of them wraps. -/
theorem bcdStoresThreeDigits : Obligations.BcdStoresThreeDigits := by
  refine ⟨encodedBy_familyF rfl fun w (hkk : kkField w = 0x33#8) => ?_, fun x s hwf => ?_⟩
  · simp [decodeFamilyF, hkk]
  · have hlen : (bcdDigits (s.reg x)).length = 3 := rfl
    obtain ⟨t, hexec, hstored, hkept, hframe⟩ := exec_storeFrom_effect (ins := .ldBcd x) hwf rfl (by omega)
    have hundreds : t.memRead (s.dataAddr 0) = BitVec.ofNat 8 ((s.reg x).toNat / 100) := hstored 0 (by omega)
    have htens : t.memRead (s.dataAddr 1) = BitVec.ofNat 8 ((s.reg x).toNat / 10 % 10) := hstored 1 (by omega)
    have hones : t.memRead (s.dataAddr 2) = BitVec.ofNat 8 ((s.reg x).toNat % 10) := hstored 2 (by omega)
    refine ⟨t, hexec, ?_, ?_, ?_, hkept, hframe⟩
    · rw [hundreds, BitVec.toNat_ofNat]; omega
    · rw [htens, BitVec.toNat_ofNat]; omega
    · rw [hones, BitVec.toNat_ofNat]; omega

/-- Settles O31: the bytes stored are `regsUpTo`, whose `z`-th is Vz. -/
theorem storeRegistersToMemory : Obligations.StoreRegistersToMemory := by
  refine ⟨encodedBy_familyF rfl fun w (hkk : kkField w = 0x55#8) => ?_, fun x s hwf => ?_⟩
  · simp [decodeFamilyF, hkk]
  · have hlen : (s.regsUpTo x).length = x.toNat + 1 := s.regsUpTo_length x
    obtain ⟨t, hexec, hstored, hkept, hframe⟩ := exec_storeFrom_effect (ins := .storeRegs x) hwf rfl (by omega)
    refine ⟨t, hexec, fun z hz => ?_, fun a ha => hkept a fun j hj => ha j (by omega), hframe⟩
    rw [hstored z.toNat (by omega), State.regsUpTo_getElem, regNumber_of_toNat]

/-! ## The load -/

/-- `loadEach` writes the register file and nothing else. -/
theorem State.loadEach_frame (s : State) (ks : List Nat) : s.loadEach ks = { s with v := (s.loadEach ks).v } := by
  induction ks generalizing s with
  | nil => rfl
  | cons k ks ih => exact ih (s.setReg (regNumber k) (s.memRead (s.dataAddr k)))

/-- What LD Vx, [I] leaves in a register: the byte at its offset up to `x`, its old value above. -/
theorem State.reg_loadEach_range (s : State) (x z : Nibble) :
    (s.loadEach (List.range (x.toNat + 1))).reg z =
      if z.toNat ≤ x.toNat then s.memRead (s.dataAddr z.toNat) else s.reg z := by
  rw [State.reg_loadEach s _ fun k hk => by have := List.mem_range.1 hk; omega]
  simp only [List.mem_range, Nat.lt_succ_iff]

/-- Settles O32, from `State.reg_loadEach_range`. -/
theorem loadRegistersFromMemory : Obligations.LoadRegistersFromMemory := by
  refine ⟨encodedBy_familyF rfl fun w (hkk : kkField w = 0x65#8) => ?_, fun x s => ?_⟩
  · simp [decodeFamilyF, hkk]
  · refine ⟨s.loadEach (List.range (x.toNat + 1)), rfl, fun z hz => ?_, fun z hz => ?_, s.loadEach_frame _⟩
    · rw [State.reg_loadEach_range, if_pos hz]
    · rw [State.reg_loadEach_range, if_neg (by omega)]

/-! ## Store, then load -/

/-- A memory read at a data offset is the byte at the reduced address of that offset. -/
theorem State.memRead_dataAddr (u s : State) (k : Nat) :
    u.memRead (s.dataAddr k) = memLookup u.mem ((s.index.toNat + k) % 4096) := by
  rw [State.memRead, reduceAddr_dataAddr]

/-- A data offset's address depends on `I` alone. -/
theorem State.dataAddr_congr {s t : State} (h : s.index = t.index) (k : Nat) : s.dataAddr k = t.dataAddr k := by
  rw [State.dataAddr, h, State.dataAddr]

/-- Settles O33: by O31 the bytes hold the registers, and by O32 the load reads those bytes back and leaves the registers
above `x`, which the store left too. -/
theorem storeThenLoadIsIdentity : Obligations.StoreThenLoadIsIdentity := by
  intro x s hwf
  obtain ⟨t, hstore, hstored, -, ht⟩ := storeRegistersToMemory.2 x s hwf
  have htIndex : t.index = s.index := by rw [ht]
  have htV : t.v = s.v := by rw [ht]
  refine ⟨t, hstore, fun t' hindex hv hbytes => ?_⟩
  obtain ⟨u, hload, hloaded, habove, hu⟩ := loadRegistersFromMemory.2 x t'
  have huMem : u.mem = t'.mem := by rw [hu]
  have held (z : Nibble) (hz : z.toNat ≤ x.toNat) : t'.memRead (s.dataAddr z.toNat) = s.reg z :=
    calc t'.memRead (s.dataAddr z.toNat) = t'.memRead (t.dataAddr z.toNat) := by rw [State.dataAddr_congr htIndex]
      _ = t.memRead (t.dataAddr z.toNat) := hbytes z.toNat hz
      _ = t.memRead (s.dataAddr z.toNat) := by rw [State.dataAddr_congr htIndex]
      _ = s.reg z := hstored z hz
  refine ⟨u, hload, regs_ext fun z => ?_, fun z hz => ?_⟩
  · rcases Nat.lt_or_ge x.toNat z.toNat with hz | hz
    · rw [habove z hz, State.reg_congr (hv.trans htV)]
    · rw [hloaded z hz, State.dataAddr_congr (hindex.trans htIndex), held z hz]
  · rw [huMem, ← State.memRead_dataAddr, held z hz]

end Sys2Proof.Machine
end

section
/-! The sprite draw (45_draw.md R195 to R199). `State.drawRows_drawn` says what a draw does to the canvas; DRW then writes the
framebuffer and VF, and drawing twice restores because the sprite's bits are the same both times and XOR undoes itself. -/

namespace Sys2Proof.Machine

/-- The canvas after DRW's sprite: the old framebuffer with the sprite bits XORed on, and the flag as `Drawn` says. The
sprite has at most 15 rows, so no row's offset wraps. -/
theorem State.drawSprite_drawn (s : State) (x y n : Nibble) :
    Drawn (fun r c => s.spriteBit ((s.reg x).toNat % 64) ((s.reg y).toNat % 32) n.toNat r.val c.val) (s.fb, false)
      (s.drawSprite (originColumn (s.reg x)) (originRow (s.reg y)) n.toNat) :=
  s.drawRows_drawn _ _ _ (by omega)

/-- Settles O35: DRW goes on to `setFb` and `setFlag` with the canvas of `State.drawSprite_drawn`. -/
theorem drawXorsTheSprite : Obligations.DrawXorsTheSprite := by
  refine ⟨encodedBy_F000 fun w (hop : opField w = 0xD#4) => ?_, fun x y n s => ?_⟩
  · simp [decodeWord, hop]
  · obtain ⟨hpixels, hhit⟩ := s.drawSprite_drawn x y n
    simp only [Bool.false_eq_true, false_or] at hhit
    refine ⟨_, rfl, hpixels, fun hcollision => ?_, fun hnone => ?_, fun z hz => ?_, rfl⟩
    · rw [State.reg_setFlag, if_pos rfl, hhit.2 hcollision]; rfl
    · rw [State.reg_setFlag, if_pos rfl, Bool.eq_false_iff.2 (mt hhit.1 hnone)]; rfl
    · rw [State.reg_setFlag, if_neg hz]; rfl

/-- The sprite's bits depend on `I` and the sprite's bytes alone. -/
theorem State.spriteBit_congr {s t : State} {n : Nat} (hindex : t.index = s.index)
    (hbytes : ∀ k, k < n → t.memRead (s.dataAddr k) = s.memRead (s.dataAddr k)) (x0 y0 r c : Nat) :
    t.spriteBit x0 y0 n r c = s.spriteBit x0 y0 n r c := by
  unfold State.spriteBit
  by_cases hinside : y0 ≤ r ∧ r < y0 + n ∧ x0 ≤ c ∧ c < x0 + 8
  · have hrow : t.memRead (s.dataAddr (r - y0)) = s.memRead (s.dataAddr (r - y0)) := hbytes (r - y0) (by omega)
    rw [State.dataAddr] at hrow
    rw [hindex, hrow]
  · simp only [hinside, decide_false, Bool.false_and]

/-- Settles O36, by O35 for each of the two draws with the same sprite bits: a set bit drawn on a set pixel the second time
was drawn on a clear one the first time. -/
theorem drawingTwiceRestores : Obligations.DrawingTwiceRestores := by
  intro x y n s
  obtain ⟨t, hfirst, htPixels, -⟩ := drawXorsTheSprite.2 x y n s
  refine ⟨t, hfirst, fun t' hfb hindex hx hy hbytes => ?_⟩
  obtain ⟨u, hsecond, huPixels, hcollision, hnone, -⟩ := drawXorsTheSprite.2 x y n t'
  simp only [hfb, htPixels, hx, hy, State.spriteBit_congr hindex hbytes] at huPixels hcollision hnone
  have hclear (p b : Bool) : (p ^^ b) = true ∧ b = true ↔ p = false ∧ b = true := by revert p b; decide
  simp only [hclear] at hcollision hnone
  refine ⟨u, hsecond, framebuffer_ext fun r c => ?_, fun hflag => ?_, hcollision⟩
  · rw [huPixels, Bool.xor_assoc, Bool.xor_self, Bool.xor_false]
  · by_contra hno
    exact absurd (hflag.symm.trans (hnone hno)) (by decide)

end Sys2Proof.Machine
end

section
/-! The keypad (46_keypad.md R210 to R214). SKP and SKNP are skips on the key of a register's low 4 bits, LD Vx,K enters the
wait, and a waiting step goes on by `leastKey s.risen`, the least key that is down now and was up at the last sample. -/

namespace Sys2Proof

/-- The decoder test of an instruction of family E. -/
theorem encodedBy_familyE {value : Word} {ins : Word → Instr} (hvalue : opField value = 0xE#4)
    (h : ∀ w, kkField w = kkField value → decodeFamilyE w = .ok (ins w)) : EncodedBy 0xF0FF#16 value ins := by
  intro w hw
  have hop : opField w = opField value := opField_of_mask hw rfl
  have hkk : kkField w = kkField value := kkField_of_mask hw rfl
  simp only [decodeWord, hop, hvalue, h w hkk]

end Sys2Proof

namespace Sys2Proof.Machine

/-! ## The waiting step (R213) -/

/-- The least risen key is the least one that is down now and was up at the last sample. -/
theorem State.leastKey_risen_eq_some {s : State} {k : Fin 16} (hdown : s.keys.getLsbD k = true)
    (hup : s.keyPrev.getLsbD k = false)
    (hleast : ∀ j : Fin 16, j < k → s.keys.getLsbD j = true → s.keyPrev.getLsbD j = true) :
    leastKey s.risen = some k.val := by
  refine leastKey_some.2 ⟨k.isLt, ?_, fun j hj => ?_⟩
  · simp [s.risen_getLsbD k.isLt, hdown, hup]
  · have hj16 : j < 16 := hj.trans k.isLt
    simpa [s.risen_getLsbD hj16] using hleast ⟨j, hj16⟩ hj

/-- No key has risen when every key that is down was down at the last sample. -/
theorem State.leastKey_risen_eq_none {s : State}
    (hheld : ∀ k : Fin 16, s.keys.getLsbD k = true → s.keyPrev.getLsbD k = true) : leastKey s.risen = none :=
  leastKey_none.2 fun k hk => by simpa [s.risen_getLsbD hk] using hheld ⟨k, hk⟩

theorem State.pollKeys_of_some {s : State} {k : Nat} (h : leastKey s.risen = some k) :
    s.pollKeys = s.endWait (BitVec.ofNat 8 k) := by
  rcases s.pollKeys_cases with ⟨j, hj, hpoll⟩ | ⟨hnone, -⟩
  · rwa [Option.some.inj (h.symm.trans hj)]
  · cases hnone.symm.trans h

theorem State.pollKeys_of_none {s : State} (h : leastKey s.risen = none) : s.pollKeys = s.sampleKeys := by
  rcases s.pollKeys_cases with ⟨_, hsome, -⟩ | ⟨-, hpoll⟩
  · cases hsome.symm.trans h
  · exact hpoll

/-- Settles O39: the step polls the keys, which ends the wait with the least risen key, or samples when none has risen. -/
theorem waitingStepPollsTheKeys : Obligations.WaitingStepPollsTheKeys := by
  intro s rest hev hhalt hwait
  have hpoll : step s = .next (State.pollKeys { s with events := rest }) :=
    (step_nextEvent hev).trans (stepCore_waiting hhalt hwait)
  refine ⟨fun k hdown hup hleast => ?_, fun hheld => ?_⟩
  · have hended : step s = .next (State.endWait { s with events := rest } (BitVec.ofNat 8 k.val)) :=
      hpoll.trans (congrArg _ (State.pollKeys_of_some (State.leastKey_risen_eq_some hdown hup hleast)))
    refine ⟨_, hended, ?_, fun z hz => ?_, rfl⟩
    · rw [State.reg_endWait, if_pos rfl, BitVec.toNat_ofNat]; omega
    · rw [State.reg_endWait, if_neg hz]; rfl
  · exact hpoll.trans (congrArg _ (State.pollKeys_of_none (State.leastKey_risen_eq_none hheld)))

/-! ## The instructions -/

/-- A register's value names the key of its low 4 bits (R214). -/
theorem State.keyDown_keyNumber (s : State) (b : Byte) : s.keyDown (keyNumber b) = s.keys.getLsbD (b.toNat % 16) := by
  simp [State.keyDown, keyNumber, BitVec.extractLsb'_toNat]

/-- Settles O37: both are skips, on the key being down or up. -/
theorem skipsOnAKey : Obligations.SkipsOnAKey := by
  refine ⟨encodedBy_familyE rfl fun w (hkk : kkField w = 0x9E#8) => ?_,
    encodedBy_familyE rfl fun w (hkk : kkField w = 0xA1#8) => ?_, fun x s => ⟨?_, ?_⟩⟩
  · simp [decodeFamilyE, hkk]
  · simp [decodeFamilyE, hkk]
  · simp only [exec, execSkp, State.skipIf_eq, State.keyDown_keyNumber]
  · simp only [exec, execSknp, State.skipIf_eq, State.keyDown_keyNumber, Bool.not_eq_true', ← Bool.not_eq_true, ite_not]

/-- Settles O38: LD Vx,K goes on to `enterWait`, which is the three writes. -/
theorem keyLoadEntersTheWait : Obligations.KeyLoadEntersTheWait := by
  refine ⟨encodedBy_familyF rfl fun w (hkk : kkField w = 0x0A#8) => ?_, fun x s => rfl⟩
  simp [decodeFamilyF, hkk]

end Sys2Proof.Machine
end

section
/-! The timer instructions (47_timers.md R225 to R227). LD Vx,DT goes on to one register write, LD DT,Vx and LD ST,Vx to the
write of one timer. -/

namespace Sys2Proof.Machine

/-- Settles O40: LD Vx,DT by `exec_setReg_effect`; each of the two loads is the write of its timer. -/
theorem timerInstructions : Obligations.TimerInstructions := by
  refine ⟨encodedBy_familyF rfl fun w (hkk : kkField w = 0x07#8) => ?_,
    encodedBy_familyF rfl fun w (hkk : kkField w = 0x15#8) => ?_,
    encodedBy_familyF rfl fun w (hkk : kkField w = 0x18#8) => ?_, fun x s => ⟨?_, ?_, ?_⟩⟩
  · simp [decodeFamilyF, hkk]
  · simp [decodeFamilyF, hkk]
  · simp [decodeFamilyF, hkk]
  · exact exec_setReg_effect rfl
  · show exec (.ldDtReg x) s = .next (s.setDt (s.reg x))
    rfl
  · show exec (.ldStReg x) s = .next (s.setSt (s.reg x))
    rfl

end Sys2Proof.Machine
end

section
/-! Exceptions and the halted state (60_exceptions.md R240 to R246). The centre is `stepCore_running_cases`: a running core's
`Step` either completes an instruction and leaves the fault registers, or is fault entry with a cause that tells the truth. -/

namespace Sys2Proof

/-- A word the decoder refuses is in R112's table. -/
theorem wordDefined_of_decodeWord_error {w : Word} {e : DecodeError} (h : decodeWord w = .error e) :
    wordDefined w = false := by
  refine Bool.eq_false_iff.2 fun hdef => ?_
  obtain ⟨ins, hins⟩ := (decodes_iff_wordDefined w).2 hdef
  cases h.symm.trans hins

end Sys2Proof

namespace Sys2Proof.Machine

/-- What a running core's `Step` can do: an instruction that leaves the core running or waiting, or fault entry. -/
theorem stepCore_running_cases {s t : State} (hrun : s.running = true) (h : stepCore s = .next t) :
    (t.halt = false ∧ t.cause = s.cause ∧ t.faultWord = s.faultWord ∧
      ∃ ins, decodeWord (s.wordAt s.pc) = .ok ins ∧ exec ins s.fetched = .next t) ∨
    (t = s.fetched.raise t.cause ∧ t.faultExplained) := by
  obtain ⟨hhalt, hwait⟩ := State.running_iff.1 hrun
  rcases stepCore_cases h with ⟨hhalted, -⟩ | ⟨-, hwaiting, -⟩ | ⟨-, ins, hdec, hexec⟩ | ⟨-, e, herr, rfl⟩
  · cases hhalt.symm.trans hhalted
  · cases hwait.symm.trans hwaiting
  · rcases exec_fault_cases hexec with ⟨hkept, hcause, hword⟩ | ⟨rfl, hsp, nnn, rfl⟩ | ⟨rfl, hsp, rfl⟩
    · exact .inl ⟨hkept.trans hhalt, hcause, hword, ins, hdec, hexec⟩
    · exact .inr ⟨rfl, .inr (.inl ⟨rfl, hsp, nnn, hdec⟩)⟩
    · exact .inr ⟨rfl, .inr (.inr ⟨rfl, hsp, hdec⟩)⟩
  · exact .inr ⟨rfl, .inl ⟨rfl, wordDefined_of_decodeWord_error herr⟩⟩

/-- A poll of the keypad leaves HALT. -/
theorem State.pollKeys_halt (s : State) : s.pollKeys.halt = s.halt := by
  rcases s.pollKeys_cases with ⟨_, _, hpoll⟩ | ⟨_, hpoll⟩ <;> simp [hpoll]

/-- The core's `Step` that halts it is fault entry (R244). -/
theorem stepCore_enters_halt {s t : State} (hhalt : s.halt = false) (h : stepCore s = .next t) (ht : t.halt = true) :
    s.wait = false ∧ t = s.fetched.raise t.cause ∧ t.faultExplained := by
  cases hwait : s.wait with
  | true =>
    have hpoll : t = s.pollKeys := next_eq ((stepCore_waiting hhalt hwait).symm.trans h)
    rw [hpoll, State.pollKeys_halt, hhalt] at ht
    cases ht
  | false =>
    rcases stepCore_running_cases (State.running_iff.2 ⟨hhalt, hwait⟩) h with ⟨hrunning, -⟩ | hfault
    · cases hrunning.symm.trans ht
    · exact ⟨rfl, hfault⟩

/-- What a step does to the fault registers, by its event: `Reset` clears them and only `Step` can write them otherwise. -/
theorem step_fault_cases {s t : State} (h : step s = .next t) :
    (s.nextEvent.1 = .step ∧ stepCore { s with events := s.nextEvent.2 } = .next t) ∨
    (t.halt = s.halt ∧ t.cause = s.cause ∧ t.faultWord = s.faultWord) ∨
    (s.nextEvent.1 = .reset ∧ t.halt = false ∧ t.cause = .noFault ∧ t.faultWord = 0x0000#16) := by
  obtain ⟨e, rest, hev, hcase⟩ := step_cases h
  rw [hev]
  rcases hcase with ⟨rfl, hcore⟩ | ⟨rfl, rfl⟩ | ⟨k, rfl, rfl⟩ | ⟨rfl, rfl⟩ | ⟨bytes, rfl, -, -, rfl⟩
  · exact .inl ⟨rfl, hcore⟩
  · exact .inr (.inl (by simp))
  · exact .inr (.inl ⟨rfl, rfl, rfl⟩)
  · exact .inr (.inr ⟨rfl, rfl, rfl, rfl⟩)
  · exact .inr (.inl (by simp))

/-- Settles O9: only a `Step` writes HALT to 1, and it does so by fault entry, whose cause explains itself. -/
theorem faultEntryIsPrecise : Obligations.FaultEntryIsPrecise := by
  intro s t hstep hs ht
  rcases step_fault_cases hstep with ⟨hev, hcore⟩ | ⟨hkept, -⟩ | ⟨-, hreset, -⟩
  · obtain ⟨hwait, hraise, hexplained⟩ := stepCore_enters_halt (s := { s with events := s.nextEvent.2 }) hs hcore ht
    have hword : t.faultWord = s.wordAt s.pc := congrArg State.faultWord hraise
    have hsp : t.sp = s.sp := by rw [hraise]; rfl
    refine ⟨hraise, hev, hwait, ?_⟩
    rw [State.faultExplained, hword, hsp] at hexplained
    rcases hexplained with ⟨hcause, hunknown⟩ | ⟨hcause, hfull, hcall⟩ | ⟨hcause, hempty, hret⟩
    · exact .inl ⟨hcause, by rw [hcause]; rfl, hunknown⟩
    · exact .inr (.inl ⟨hcause, by rw [hcause]; rfl, hfull, hcall⟩)
    · exact .inr (.inr ⟨hcause, by rw [hcause]; rfl, hempty, hret⟩)
  · cases (hkept.trans hs).symm.trans ht
  · cases hreset.symm.trans ht

/-- Settles O11: a halted core's `Step` changes nothing, and of the other events only `Reset` writes the fault registers. -/
theorem onlyResetLeavesHalt : Obligations.OnlyResetLeavesHalt := by
  intro s t hs hstep
  rcases step_fault_cases hstep with ⟨-, hcore⟩ | ⟨hhalt, hcause, hword⟩ | hreset
  · rw [next_eq ((stepCore_halted (s := { s with events := s.nextEvent.2 }) hs).symm.trans hcore)]
    exact .inl ⟨hs, rfl, rfl⟩
  · exact .inl ⟨hhalt.trans hs, hcause, hword⟩
  · exact .inr hreset

/-- Settles O10: `Step` and `Tick` test HALT first, and `SetKeys` writes KEYS alone. -/
theorem haltedCoreIsInert : Obligations.HaltedCoreIsInert := by
  intro s rest hs
  refine ⟨fun hev => ?_, fun hev => ?_, fun k hev => step_nextEvent hev⟩
  · exact (step_nextEvent hev).trans (stepCore_halted hs)
  · exact (step_nextEvent hev).trans (congrArg Host.Outcome.next (if_pos hs))

/-- Settles O8, by the decoder's answer on a word of R112's table. -/
theorem unknownOpcodeHalts : Obligations.UnknownOpcodeHalts := by
  intro s rest hev hrun hunknown
  exact (step_nextEvent hev).trans (stepCore_undecoded hrun ((unknownWordsAreTheTables (s.wordAt s.pc)).1 hunknown))

end Sys2Proof.Machine
end

section
/-! The step and what it runs (30_encoding.md R90, R91), and where a step or a run ends (70_reset_and_hazards.md R284, R297). -/

namespace Sys2Proof.Machine

/-- Settles O1, by evaluating the decoder on the seven words. -/
theorem printedWordsDecode : Obligations.PrintedWordsDecode :=
  ⟨rfl, rfl, rfl, rfl, rfl, rfl, rfl⟩

/-- Two bytes decode to what their word decodes to, and none is left. -/
theorem decode_pair_eq_ok_iff (hi lo : Byte) (ins : Instr) :
    decode [hi, lo] = .ok (ins, []) ↔ decodeWord (wordOfBytes hi lo) = .ok ins := by
  cases hdec : decodeWord (wordOfBytes hi lo) <;> simp [decode, hdec]

theorem State.nextEvent_of_events {s : State} {e : Event} {rest : List Event} (h : s.events = e :: rest) :
    s.nextEvent = (e, rest) := by
  simp only [State.nextEvent, h]

/-- The `Step` of a running core executes what the word at `pc` decodes to, in the state after the fetch. -/
theorem step_decoded {s : State} {rest : List Event} {ins : Instr} (hev : s.nextEvent = (.step, rest))
    (hrun : s.running = true) (hdec : decodeWord (s.wordAt s.pc) = .ok ins) :
    step s = exec ins (State.fetched { s with events := rest }) :=
  (step_nextEvent hev).trans (stepCore_decoded hrun hdec)

/-- Settles O7, from `step_decoded`. -/
theorem stepRunsTheDecodedInstruction : Obligations.StepRunsTheDecodedInstruction := by
  intro s rest ins hev hrun hdec
  exact step_decoded hev hrun ((decode_pair_eq_ok_iff ..).1 hdec)

/-- Settles O49: the jump puts back the `pc` that the fetch moved on. -/
theorem endOfRunStays : Obligations.EndOfRunStays := by
  rintro s rest hev ⟨hrun, nnn, hjump, hself⟩
  have hback : step s = .next ((State.fetched { s with events := rest }).setPc (zextAddr nnn)) :=
    step_decoded hev hrun hjump
  rw [hback, hself]
  rfl

/-- Settles O50: RET and CALL go on whether the stack answers or not, every other instruction in one way. -/
theorem everyInstructionCompletes : Obligations.EveryInstructionCompletes := by
  intro ins s
  cases ins
  case ret => rcases s.pop_cases with ⟨_, hpop⟩ | ⟨_, hpop⟩ <;> simp [exec, execRet, hpop]
  case call => rcases s.push_cases s.pc with ⟨_, hpush⟩ | ⟨_, hpush⟩ <;> simp [exec, execCall, hpush]
  all_goals exact ⟨_, rfl⟩

/-- The core's `Step` goes on from every state. -/
theorem stepCore_completes (s : State) : ∃ t, stepCore s = .next t := by
  cases hhalt : s.halt with
  | true => exact ⟨_, stepCore_halted hhalt⟩
  | false =>
    cases hwait : s.wait with
    | true => exact ⟨_, stepCore_waiting hhalt hwait⟩
    | false =>
      have hrun : s.running = true := State.running_iff.2 ⟨hhalt, hwait⟩
      cases hdec : decodeWord (s.wordAt s.pc) with
      | ok ins => rw [stepCore_decoded hrun hdec]; exact everyInstructionCompletes ins s.fetched
      | error e => exact ⟨_, stepCore_undecoded hrun hdec⟩

/-- Settles O51, by the event: the core's `Step` always goes on, and `Load` is refused in the two ways of R284 only. -/
theorem onlyAnIllegalLoadIsRefused : Obligations.OnlyAnIllegalLoadIsRefused := by
  intro s
  obtain ⟨e, rest, hev⟩ : ∃ e rest, s.nextEvent = (e, rest) := ⟨_, _, rfl⟩
  rw [step_nextEvent hev]
  cases e with
  | step => exact .inl (stepCore_completes _)
  | tick | setKeys | reset => exact .inl ⟨_, rfl⟩
  | load bytes =>
    rcases State.load_cases { s with events := rest } bytes with ⟨-, -, hgo⟩ | ⟨-, hlong, -⟩ | ⟨hlate, -⟩
    · exact .inl ⟨_, hgo⟩
    · exact .inr ⟨bytes, rest, hev, .inr hlong⟩
    · exact .inr ⟨bytes, rest, hev, .inl hlate⟩

end Sys2Proof.Machine
end

section
/-! Timers (60_exceptions.md R254, R255). A tick takes each timer down by `countDown`, and every other event but a load by
`Fx15` or `Fx18` raises neither. -/

namespace Sys2Proof.Machine

/-- A tick takes a timer down by 1, never below 0. -/
theorem countDown_toNat (b : Byte) : (countDown b).toNat = b.toNat - 1 := by
  unfold countDown
  split
  case isTrue hzero => rw [hzero]; rfl
  case isFalse hne =>
    have hpos : b.toNat ≠ 0 := fun h => hne (BitVec.eq_of_toNat_eq h)
    rw [BitVec.toNat_sub, BitVec.toNat_ofNat]
    omega

/-- A tick raises neither timer. -/
theorem State.tick_timers_le (s : State) : s.tick.dt.toNat ≤ s.dt.toNat ∧ s.tick.st.toNat ≤ s.st.toNat := by
  cases hs : s.halt with
  | true => simp [hs]
  | false => simp [hs, countDown_toNat]

/-- Settles O41: `State.tick` tests HALT and then writes the two timers, each as `countDown_toNat` says. -/
theorem tickCountsDown : Obligations.TickCountsDown := by
  intro s rest hev
  have hstep : step s = .next (State.tick { s with events := rest }) := step_nextEvent hev
  refine ⟨fun hs => ?_, fun hs => hstep.trans (congrArg _ (if_pos hs))⟩
  have htick : State.tick { s with events := rest } =
      { s with dt := countDown s.dt, st := countDown s.st, events := rest } := if_neg (by simp [hs])
  exact ⟨_, hstep.trans (congrArg _ htick), countDown_toNat s.dt, countDown_toNat s.st, rfl⟩

/-- Settles O42, by induction on the number of ticks: each one is O41. -/
theorem timersReachZeroAndStay : Obligations.TimersReachZeroAndStay := by
  intro n
  induction n with
  | zero =>
    rintro s rest - hevents
    obtain rfl : s.events = rest := hevents
    exact ⟨s, rfl, rfl, rfl, rfl⟩
  | succ n ih =>
    intro s rest hs hevents
    have hev : s.nextEvent = (.tick, List.replicate n .tick ++ rest) := State.nextEvent_of_events hevents
    obtain ⟨t, hstep, htdt, htst, ht⟩ := (tickCountsDown s _ hev).1 hs
    obtain ⟨u, hrun, hudt, hust, hu⟩ := ih t rest (by rw [ht]; exact hs) (by rw [ht])
    refine ⟨u, (run_succ hstep).trans hrun, by omega, by omega, ?_⟩
    rw [ht] at hu
    exact hu

/-- A poll of the keypad leaves both timers. -/
theorem State.pollKeys_timers (s : State) : s.pollKeys.dt = s.dt ∧ s.pollKeys.st = s.st := by
  rcases s.pollKeys_cases with ⟨_, _, hpoll⟩ | ⟨_, hpoll⟩ <;> simp [hpoll]

/-- What a step does to the timers: it raises neither, or it is the `Step` of a running core that executes an instruction. -/
theorem step_timer_cases {s t : State} (h : step s = .next t) :
    (t.dt.toNat ≤ s.dt.toNat ∧ t.st.toNat ≤ s.st.toNat) ∨
    (s.nextEvent.1 = .step ∧ s.running = true ∧ ∃ ins, decodeWord (s.wordAt s.pc) = .ok ins ∧
      exec ins (State.fetched { s with events := s.nextEvent.2 }) = .next t) := by
  have kept {u : State} (hdt : u.dt = s.dt) (hst : u.st = s.st) : u.dt.toNat ≤ s.dt.toNat ∧ u.st.toNat ≤ s.st.toNat := by
    rw [hdt, hst]; exact ⟨le_rfl, le_rfl⟩
  obtain ⟨e, rest, hev, hcase⟩ := step_cases h
  rw [hev]
  rcases hcase with ⟨rfl, hcore⟩ | ⟨rfl, rfl⟩ | ⟨k, rfl, rfl⟩ | ⟨rfl, rfl⟩ | ⟨bytes, rfl, -, -, rfl⟩
  · rcases stepCore_cases hcore with ⟨-, rfl⟩ | ⟨-, -, rfl⟩ | ⟨hrun, ins, hdec, hexec⟩ | ⟨-, _, -, rfl⟩
    · exact .inl (kept rfl rfl)
    · obtain ⟨hdt, hst⟩ := State.pollKeys_timers { s with events := rest }
      exact .inl (kept hdt hst)
    · exact .inr ⟨rfl, hrun, ins, hdec, hexec⟩
    · exact .inl (kept rfl rfl)
  · exact .inl (State.tick_timers_le { s with events := rest })
  · exact .inl (kept rfl rfl)
  · exact .inl ⟨Nat.zero_le _, Nat.zero_le _⟩
  · exact .inl (kept (by simp) (by simp))

/-- Settles O43: a step that raises a timer executes an instruction, and by O52 the timer's load is the only one that
writes it. -/
theorem timersRiseOnlyByTheirLoads : Obligations.TimersRiseOnlyByTheirLoads := by
  intro s t hstep
  rcases step_timer_cases hstep with ⟨hdt, hst⟩ | ⟨hev, hrun, ins, hdec, hexec⟩
  · exact ⟨fun hrise => absurd hrise hdt.not_gt, fun hrise => absurd hrise hst.not_gt⟩
  · obtain ⟨-, -, -, -, -, hdtWriter, hstWriter, -⟩ := eachStoreHasItsOnlyWriters ins _ t hexec
    refine ⟨fun hrise => ?_, fun hrise => ?_⟩
    · obtain ⟨x, rfl⟩ := hdtWriter fun hsame => hrise.ne (congrArg BitVec.toNat hsame.symm)
      exact ⟨hev, hrun, x, hdec, by rw [next_eq hexec]; rfl⟩
    · obtain ⟨x, rfl⟩ := hstWriter fun hsame => hrise.ne (congrArg BitVec.toNat hsame.symm)
      exact ⟨hev, hrun, x, hdec, by rw [next_eq hexec]; rfl⟩

end Sys2Proof.Machine
end

section
/-! Reset, Load and the first Step (70_reset_and_hazards.md R280 to R285), the keypad writer (10_state.md R31), and the memory
they leave. -/

namespace Sys2Proof.Machine

/-- Settles O29: it is `memory_ext` from address 0. -/
theorem canonicalMemoriesAreEqual : Obligations.CanonicalMemoriesAreEqual := fun _ _ => memory_ext

/-- Settles O44, by evaluating the 80 reads. -/
theorem fontTableAfterReset : Obligations.FontTableAfterReset := by
  unfold Obligations.FontTableAfterReset
  decide

/-- Settles O48: the event's whole effect is `State.setKeys`. -/
theorem setKeysReplacesTheLatch : Obligations.SetKeysReplacesTheLatch :=
  fun _ _ _ hev => step_nextEvent hev

/-- Settles O45: the state after the event is `State.resetEvent`, whose memory lists nothing and so reads as
`memInitial`. -/
theorem resetInitialisesEverything : Obligations.ResetInitialisesEverything := by
  intro s rest hev
  refine ⟨State.resetEvent { s with events := rest }, step_nextEvent hev, fun z => ?_, rfl, rfl, rfl, fun k => ?_, rfl, rfl,
    Framebuffer.pixel_clear, fun a => memInitial_outside, fun a ha => if_pos ha.1, rfl, rfl, rfl, rfl, rfl, rfl, rfl, rfl, rfl⟩
  · exact Vector.getElem_replicate _
  · exact Vector.getElem_replicate _

/-- `loadImage` writes memory and nothing else. -/
theorem State.loadImage_frame (s : State) (a : Nat) (bytes : List Byte) :
    s.loadImage a bytes = { s with mem := (s.loadImage a bytes).mem } := by
  induction bytes generalizing s a with
  | nil => rfl
  | cons b bytes ih => exact ih (s.memWrite (BitVec.ofNat 16 a) b) (a + 1)

/-- A `Load` that R284 allows stores the image. -/
theorem State.load_of_fits {s : State} {bytes : List Byte} (hload : s.loadable = true) (hlen : bytes.length ≤ 3584) :
    s.load bytes = .next (s.loadImage 0x200 bytes) := by
  rcases s.load_cases bytes with ⟨-, -, hgo⟩ | ⟨-, hlong, -⟩ | ⟨hlate, -⟩
  · exact hgo
  · omega
  · cases hload.symm.trans hlate

/-- Settles O46: the three cases of `Load`, and `State.loadImage_spec` for what an allowed one stores. -/
theorem loadCopiesTheImage : Obligations.LoadCopiesTheImage := by
  intro s rest bytes hev
  rw [step_nextEvent hev]
  refine ⟨fun hload hlen hwf => ?_, fun hload hlong => ?_, fun hlate => ?_⟩
  · obtain ⟨-, hstored, hkept⟩ :=
      State.loadImage_spec (s := { s with events := rest }) hwf 0x200 bytes (by omega)
    exact ⟨_, State.load_of_fits hload hlen, hstored, hkept, State.loadImage_frame ..⟩
  · rcases State.load_cases { s with events := rest } bytes with ⟨-, hfits, -⟩ | ⟨-, -, hrefused⟩ | ⟨hlate, -⟩
    · omega
    · exact hrefused
    · cases hload.symm.trans hlate
  · exact if_pos (by simp [hlate])

/-- The word at 0x200 after an image is loaded is the image's first two bytes. -/
theorem State.wordAt_loadImage {s : State} (hwf : s.mem.wf = true) (hi lo : Byte) (more : List Byte)
    (hlen : more.length ≤ 3582) : (s.loadImage 0x200 (hi :: lo :: more)).wordAt 0x0200#16 = wordOfBytes hi lo := by
  have hfits : 0x200 + (hi :: lo :: more).length ≤ 4096 := by simp only [List.length_cons]; omega
  obtain ⟨-, hstored, -⟩ := State.loadImage_spec hwf 0x200 _ hfits
  have hhi : (s.loadImage 0x200 (hi :: lo :: more)).memRead 0x0200#16 = hi := hstored 0 (by simp)
  have hlo : (s.loadImage 0x200 (hi :: lo :: more)).memRead 0x0201#16 = lo := hstored 1 (by simp)
  rw [State.wordAt, hhi]
  exact congrArg _ hlo

/-- The state that `Reset` and a `Load` of an image that fits lead to, with the later events left. -/
def State.booted (s : State) (image : List Byte) (later : List Event) : State :=
  (State.resetEvent { s with events := later }).loadImage 0x200 image

/-- `Reset` and a `Load` that fits always go on. -/
theorem run_boots {s : State} {image : List Byte} {later : List Event} (n : Nat)
    (hevents : s.events = .reset :: .load image :: later) (hlen : image.length ≤ 3584) :
    core.run (n + 2) s = core.run n (s.booted image later) := by
  have hreset : step s = .next (State.resetEvent { s with events := .load image :: later }) :=
    step_nextEvent (State.nextEvent_of_events hevents)
  have hload : step (State.resetEvent { s with events := .load image :: later }) = .next (s.booted image later) :=
    (step_nextEvent rfl).trans (State.load_of_fits rfl hlen)
  rw [run_succ hreset, run_succ hload]

@[simp] theorem State.booted_fields (s : State) (image : List Byte) (later : List Event) :
    (s.booted image later).pc = 0x0200#16 ∧ (s.booted image later).keys = s.keys ∧
    (s.booted image later).halt = false ∧ (s.booted image later).wait = false ∧
    (s.booted image later).events = later := by
  simp [State.booted, State.reset]

/-- The state after a fetch, by where it fetched and what it found. -/
theorem State.fetched_eq {s : State} {a w : Word} (hpc : s.pc = a) (hword : s.wordAt a = w) :
    s.fetched = { s with pc := a + 2#16, ir := w, loadable := false } := by
  subst hpc hword
  rfl

/-- Settles O47: `Reset` and the `Load` go on to `State.booted`, which is running at 0x200, where the word is the image's
first. -/
theorem firstStepRunsTheLoadedProgram : Obligations.FirstStepRunsTheLoadedProgram := by
  intro s hi lo more ins rest hevents hlen hdec
  have hfits : (hi :: lo :: more).length ≤ 3584 := by simp only [List.length_cons]; omega
  obtain ⟨t, ht⟩ : ∃ t, t = s.booted (hi :: lo :: more) (.step :: rest) := ⟨_, rfl⟩
  have hpc : t.pc = 0x0200#16 := by simp [ht]
  have hword : t.wordAt 0x0200#16 = wordOfBytes hi lo := ht ▸ State.wordAt_loadImage rfl hi lo more hlen
  have hstep : step t = exec ins (State.fetched { t with events := rest }) :=
    step_decoded (State.nextEvent_of_events (by simp [ht])) (State.running_iff.2 (by simp [ht]))
      (by rw [hpc, hword]; exact (decode_pair_eq_ok_iff ..).1 hdec)
  have hrun (n : Nat) : core.run (n + 2) s = core.run n t := ht ▸ run_boots n hevents hfits
  refine ⟨t, hrun 0, hpc, by simp [ht], ?_⟩
  rw [hrun 1, run_one, hstep]
  exact congrArg (exec ins) (State.fetched_eq (s := { t with events := rest }) hpc hword)

end Sys2Proof.Machine
end

section
/-! A call and its return, and the jump with an offset (40_control_flow.md R131, R133, R138). -/

namespace Sys2Proof.Machine

/-- Settles O15: CALL puts `pc` in the slot SP names (O14), and RET takes the last slot (O13); the slots below are not
written. -/
theorem returnAfterCallComesBack : Obligations.ReturnAfterCallComesBack := by
  intro nnn s hsp
  obtain ⟨t, hcall, -, htsp, htop, hbelow, ht⟩ := (callPushesOrOverflows.2 nnn s).1 ⟨s.sp.val, hsp⟩ rfl
  have hret : exec .ret t = .next { t with sp := s.sp, pc := t.stack[s.sp.val] } :=
    (retPopsOrUnderflows.2 t).1 ⟨s.sp.val, hsp⟩ htsp
  refine ⟨t, _, hcall, hret, htop, rfl, ?_, fun j hj => hbelow j (Fin.ne_of_val_ne hj.ne)⟩
  rw [htop, ht]

/-- Settles O17: a 12-bit address and a byte add up to less than 65536. -/
theorem jumpWithOffsetAddsVZero : Obligations.JumpWithOffsetAddsVZero := by
  refine ⟨encodedBy_F000 fun w (hop : opField w = 0xB#4) => ?_, fun nnn s => ?_⟩
  · simp [decodeWord, hop]
  · refine ⟨s.setPc (zextAddr nnn + zextByte (s.reg 0x0#4)), rfl, ?_, rfl⟩
    have hsum : (zextAddr nnn + zextByte (s.reg 0x0#4)).toNat = (nnn.toNat + (s.reg 0x0#4).toNat) % 65536 := by
      rw [BitVec.toNat_add, zextAddr_toNat, zextByte_toNat]
    exact hsum.trans (Nat.mod_eq_of_lt (by omega))

end Sys2Proof.Machine
end

section
/-! Non-interference (10_state.md R28, R36, R39, 60_exceptions.md R256). ST, KEYS and the coming random bytes are read by the
instructions that R39 names and by no other: an instruction commutes with any change of those it does not name. -/

namespace Sys2Proof.Machine

/-- A change of the sound timer, of the key latch and of the coming random bytes (the model's queue and counter). -/
structure Change where
  st : Byte → Byte := id
  keys : Word → Word := id
  rnd : List Byte → List Byte := id
  draws : Nat → Nat := id

/-- The state with the change made. -/
def Change.app (c : Change) (s : State) : State :=
  { s with st := c.st s.st, keys := c.keys s.keys, rnd := c.rnd s.rnd, draws := c.draws s.draws }

theorem Change.app_storeFrom (c : Change) (s : State) (k : Nat) (bs : List Byte) :
    (c.app s).storeFrom k bs = c.app (s.storeFrom k bs) := by
  induction bs generalizing s k with
  | nil => rfl
  | cons b bs ih => exact ih (s.memWrite (s.dataAddr k) b) (k + 1)

theorem Change.app_loadEach (c : Change) (s : State) (ks : List Nat) :
    (c.app s).loadEach ks = c.app (s.loadEach ks) := by
  induction ks generalizing s with
  | nil => rfl
  | cons k ks ih => exact ih (s.setReg (regNumber k) (s.memRead (s.dataAddr k)))

theorem Change.app_skipIf (c : Change) (s : State) (b : Bool) : (c.app s).skipIf b = c.app (s.skipIf b) := by
  cases b <;> rfl

theorem Change.app_push (c : Change) (s : State) (a : Word) : (c.app s).push a = (s.push a).map c.app := by
  rcases s.push_cases a with ⟨hroom, hpush⟩ | ⟨hfull, hpush⟩ <;> rw [hpush]
  · exact dif_pos hroom
  · exact dif_neg hfull.not_lt

theorem Change.app_pop (c : Change) (s : State) : (c.app s).pop = s.pop.map (Prod.map id c.app) := by
  rcases s.pop_cases with ⟨hheld, hpop⟩ | ⟨hempty, hpop⟩ <;> rw [hpop]
  · exact dif_pos hheld
  · exact dif_neg hempty.not_gt

/-- A draw does not see the sound timer and the keys. -/
theorem Change.app_draw {c : Change} (hrnd : c.rnd = id) (hdraws : c.draws = id) (s : State) :
    (c.app s).randomByte = s.randomByte ∧ (c.app s).afterDraw = c.app s.afterDraw := by
  unfold State.randomByte State.afterDraw
  cases hqueue : s.rnd <;> simp [Change.app, hrnd, hdraws, hqueue]

/-- An instruction commutes with a change of what it does not name. -/
theorem exec_app {ins : Instr} {c : Change} (s : State) (hst : ∀ x, ins = .ldStReg x → c.st = id)
    (hkeys : ∀ x, ins = .skp x ∨ ins = .sknp x ∨ ins = .ldKey x → c.keys = id)
    (hrnd : ∀ x kk, ins = .rnd x kk → c.rnd = id ∧ c.draws = id) :
    exec ins (c.app s) = mapNext c.app (exec ins s) := by
  cases ins
  case ret =>
    simp only [exec, execRet, c.app_pop]
    cases s.pop <;> rfl
  case call =>
    have hpush : (c.app s).push (c.app s).pc = (s.push s.pc).map c.app := c.app_push s s.pc
    simp only [exec, execCall, hpush]
    cases s.push s.pc <;> rfl
  case seByte | sneByte | seReg | sneReg => exact congrArg Host.Outcome.next (c.app_skipIf ..)
  case skp x | sknp x =>
    obtain ⟨st, keys, rnd, draws⟩ := c
    obtain rfl : keys = id := hkeys x (by simp)
    exact congrArg Host.Outcome.next (Change.app_skipIf ..)
  case ldKey x =>
    obtain ⟨st, keys, rnd, draws⟩ := c
    obtain rfl : keys = id := hkeys x (by simp)
    rfl
  case ldStReg x =>
    obtain ⟨st, keys, rnd, draws⟩ := c
    obtain rfl : st = id := hst x rfl
    rfl
  case rnd x kk =>
    obtain ⟨hqueue, hcount⟩ := hrnd x kk rfl
    obtain ⟨hbyte, hdrawn⟩ := Change.app_draw hqueue hcount s
    rw [exec_rnd_eq, exec_rnd_eq, hbyte, hdrawn]
    rfl
  case ldBcd | storeRegs => exact congrArg Host.Outcome.next (c.app_storeFrom ..)
  case loadRegs => exact congrArg Host.Outcome.next (c.app_loadEach ..)
  all_goals rfl

/-- Settles O53: a change of the coming random bytes, which only RND names. -/
theorem onlyRndReadsTheRandomPort : Obligations.OnlyRndReadsTheRandomPort := by
  intro ins s q d hother
  exact exec_app (c := { rnd := fun _ => q, draws := fun _ => d }) s (fun _ _ => rfl) (fun _ _ => rfl)
    fun x kk h => absurd h (hother x kk)

/-- Settles O54: a change of KEYS, which only the three instructions name. -/
theorem onlyKeyInstructionsReadTheKeypad : Obligations.OnlyKeyInstructionsReadTheKeypad := by
  intro ins s k hother
  refine exec_app (c := { keys := fun _ => k }) s (fun _ _ => rfl) (fun x h => ?_) fun _ _ _ => ⟨rfl, rfl⟩
  obtain ⟨hskp, hsknp, hldKey⟩ := hother x
  rcases h with h | h | h
  · exact absurd h hskp
  · exact absurd h hsknp
  · exact absurd h hldKey

/-- Settles O55: LD ST,Vx, the one instruction that names ST, only writes it; the others commute with a change of it, which
overwriting ST hides. -/
theorem noInstructionReadsTheSoundTimer : Obligations.NoInstructionReadsTheSoundTimer := by
  intro ins s b
  by_cases hload : ∃ x, ins = .ldStReg x
  · obtain ⟨x, rfl⟩ := hload
    rfl
  · have hcommutes : exec ins { s with st := b } = mapNext (fun t => { t with st := b }) (exec ins s) :=
      exec_app (c := { st := fun _ => b }) s (fun x h => absurd ⟨x, h⟩ hload) (fun _ _ => rfl) fun _ _ _ => ⟨rfl, rfl⟩
    rw [hcommutes]
    cases exec ins s <;> rfl

end Sys2Proof.Machine
end

section
/-! What the host sees (10_state.md R30, R37). -/

namespace Sys2Proof.Machine

/-- Row after row: the flat framebuffer is the core library's flattening of a vector of rows. -/
theorem Framebuffer.flat_eq (f : Framebuffer) : f.flat = (Vector.flatten f).toList :=
  calc f.flat = (f.toList.map Vector.toList).flatten := List.flatMap_def
    _ = ((f.toArray.map Vector.toArray).toList.map Array.toList).flatten := by
      rw [Array.toList_map, List.map_map]; rfl
    _ = (Vector.flatten f).toList := Array.toList_flatten.symm

/-- Settles O56, by `Vector.getElem_flatten`: cell `r * 64 + c` is in row `r`, at column `c`. -/
theorem hostSeesTheFramebufferFlat : Obligations.HostSeesTheFramebufferFlat := by
  intro s
  have hflat : s.hostView.fb = (Vector.flatten s.fb).toList := s.fb.flat_eq
  refine ⟨?_, fun r c => ?_, rfl, rfl, rfl, rfl⟩
  · rw [hflat, Vector.length_toList]
  · have hi : r.val * 64 + c.val < 32 * 64 := by omega
    have hrow : (r.val * 64 + c.val) / 64 = r.val := by omega
    have hcolumn : (r.val * 64 + c.val) % 64 = c.val := by omega
    rw [hflat, Vector.getElem?_toList, Vector.getElem?_eq_getElem hi, Vector.getElem_flatten]
    simp only [hrow, hcolumn, Framebuffer.pixel]

end Sys2Proof.Machine
end

section
/-! The invariant of the machine (`State.Inv`; 60_exceptions.md R240, R244, 10_state.md R32, 70_reset_and_hazards.md R285). One
lemma for each event; the core's `Step` by what it does in the three states of R90. -/

namespace Sys2Proof.Machine

/-- As `Reset` left it but for memory, KEYS and the environment's own future: what the invariant says until the first
`Step`. -/
def State.Untouched (s : State) : Prop :=
  s = { State.reset with mem := s.mem, keys := s.keys, events := s.events, rnd := s.rnd, draws := s.draws }

theorem State.untouched_iff {s : State} : s.Untouched ↔ ∃ m k e r d,
    s = { State.reset with mem := m, keys := k, events := e, rnd := r, draws := d } := by
  constructor
  · exact fun h => ⟨_, _, _, _, _, h⟩
  · rintro ⟨m, k, e, r, d, rfl⟩; rfl

/-- An untouched core is running, with no fault recorded. -/
theorem State.Untouched.running {s : State} (h : s.Untouched) :
    s.halt = false ∧ s.wait = false ∧ s.cause = .noFault ∧ s.faultWord = 0x0000#16 := by
  obtain ⟨_, _, _, _, _, rfl⟩ := State.untouched_iff.1 h
  exact ⟨rfl, rfl, rfl, rfl⟩

/-- Both timers are 0 after `Reset`, so a tick leaves them. -/
theorem State.Untouched.tick {s : State} (h : s.Untouched) : s.tick.Untouched := by
  obtain ⟨_, _, _, _, _, rfl⟩ := State.untouched_iff.1 h
  rfl

theorem State.Untouched.setKeys {s : State} (h : s.Untouched) (k : Word) : (s.setKeys k).Untouched := by
  obtain ⟨_, _, _, _, _, rfl⟩ := State.untouched_iff.1 h
  rfl

theorem State.Untouched.withEvents {s : State} (h : s.Untouched) (e : List Event) :
    State.Untouched { s with events := e } := by
  obtain ⟨_, _, _, _, _, rfl⟩ := State.untouched_iff.1 h
  rfl

theorem State.Untouched.loadImage {s : State} (h : s.Untouched) (a : Nat) (bytes : List Byte) :
    (s.loadImage a bytes).Untouched := by
  obtain ⟨_, _, _, _, _, rfl⟩ := State.untouched_iff.1 h
  rw [State.loadImage_frame]
  rfl

/-- After a fetch the fetched word is the one behind `pc`, as long as memory and `pc` stay. -/
theorem State.wordAt_behind (s t : State) (hmem : t.mem = s.mem) (hpc : t.pc = s.pc + 2#16) :
    t.wordAt (t.pc - 2#16) = s.wordAt s.pc := by
  rw [hpc, BitVec.add_sub_cancel, State.wordAt_congr hmem]

/-! ## Four ways to have the invariant -/

/-- A core that is not halted has it when no fault is recorded and its wait and `loadable` tell the truth. -/
theorem State.Inv.of_not_halted {s : State} (hwf : s.mem.wf = true) (hhalt : s.halt = false) (hcause : s.cause = .noFault)
    (hword : s.faultWord = 0x0000#16) (hwait : s.wait = true → decodeWord (s.wordAt (s.pc - 2#16)) = .ok (.ldKey s.waitReg))
    (huntouched : s.loadable = true → s.Untouched) : s.Inv where
  memoryCanonical := hwf
  noFaultRecorded _ := ⟨hcause, hword⟩
  faultTold h := by cases hhalt.symm.trans h
  waitTold := hwait
  untouchedUntilStep := huntouched

/-- An untouched core with canonical memory has it. -/
theorem State.Untouched.inv {s : State} (h : s.Untouched) (hwf : s.mem.wf = true) : s.Inv := by
  obtain ⟨hhalt, hwait, hcause, hword⟩ := h.running
  exact .of_not_halted hwf hhalt hcause hword (fun hw => by cases hwait.symm.trans hw) fun _ => h

/-- It is kept when only registers, timers, the keypad and the coming events change and no wait begins: of these it speaks
only of a wait, and its end leaves less to tell. -/
theorem State.Inv.of_frame {s t : State} (h : s.Inv)
    (hframe : t = { s with
      v := t.v, dt := t.dt, st := t.st, keys := t.keys, keyPrev := t.keyPrev, wait := t.wait, events := t.events })
    (hwait : t.wait = true → s.wait = true) (huntouched : s.Untouched → t.Untouched) : t.Inv := by
  obtain ⟨hwf, hnone, htold, hwaiting, hreset⟩ := h
  have hnowait (hs : s.halt = true) : t.wait = false :=
    Bool.eq_false_iff.2 fun hw => by cases (hwait hw).symm.trans (htold hs).1
  have hloadable : t.loadable = s.loadable := by rw [hframe]
  have hreset' : t.loadable = true → t.Untouched := fun hl => huntouched (hreset (hloadable.symm.trans hl))
  rw [hframe] at hreset' ⊢
  exact ⟨hwf, hnone, fun hs => ⟨hnowait hs, (htold hs).2⟩, fun hw => hwaiting (hwait hw), hreset'⟩

/-- Fault entry has it when the cause explains itself: the faulting word is behind `pc`. -/
theorem State.Inv.raise_fetched {s : State} {c : Cause} (h : s.Inv) (hwait : s.wait = false)
    (hexplained : (s.fetched.raise c).faultExplained) : (s.fetched.raise c).Inv where
  memoryCanonical := h.memoryCanonical
  noFaultRecorded hhalt := by cases hhalt
  faultTold _ := ⟨hwait, (State.wordAt_behind s (s.fetched.raise c) rfl rfl).symm, hexplained⟩
  waitTold hw := by cases hwait.symm.trans hw
  untouchedUntilStep hl := by cases hl

/-! ## The core's `Step` -/

/-- A poll of the keypad writes a register or KEYPREV, and may end the wait. -/
theorem State.Inv.pollKeys {s : State} (h : s.Inv) (hwait : s.wait = true) : s.pollKeys.Inv := by
  have hstepped (hu : s.Untouched) : s.pollKeys.Untouched := by
    obtain ⟨-, hnowait, -⟩ := hu.running
    cases hnowait.symm.trans hwait
  refine h.of_frame ?_ (fun _ => hwait) hstepped
  rcases s.pollKeys_cases with ⟨_, _, hpoll⟩ | ⟨_, hpoll⟩ <;> rw [hpoll] <;> rfl

/-- An instruction that records no fault leaves a core that waits, if it does, for the `Fx0A` it executed. -/
theorem State.Inv.exec_fetched {s t : State} {ins : Instr} (h : s.Inv) (hrun : s.running = true)
    (hdec : decodeWord (s.wordAt s.pc) = .ok ins) (hexec : exec ins s.fetched = .next t) (hhalt : t.halt = false)
    (hcause : t.cause = s.cause) (hword : t.faultWord = s.faultWord) : t.Inv := by
  obtain ⟨hs, hwait⟩ := State.running_iff.1 hrun
  obtain ⟨hnone, hzero⟩ := h.noFaultRecorded hs
  refine .of_not_halted (exec_mem_wf (s := s.fetched) h.memoryCanonical hexec) hhalt (hcause.trans hnone) (hword.trans hzero)
    (fun hw => ?_) fun hl => by cases (exec_loadable hexec).symm.trans hl
  rcases exec_wait_cases hexec with hkept | ⟨x, rfl, rfl⟩
  · cases (hkept.trans hwait).symm.trans hw
  · rw [State.wordAt_behind s (s.fetched.enterWait x) rfl rfl]
    exact hdec

/-- Nothing when halted, a poll when waiting, else an instruction or fault entry. -/
theorem State.Inv.stepCore {s t : State} (h : s.Inv) (hcore : stepCore s = .next t) : t.Inv := by
  cases hhalt : s.halt with
  | true =>
    rw [next_eq ((stepCore_halted hhalt).symm.trans hcore)]
    exact h
  | false =>
    cases hwait : s.wait with
    | true =>
      rw [next_eq ((stepCore_waiting hhalt hwait).symm.trans hcore)]
      exact h.pollKeys hwait
    | false =>
      have hrun : s.running = true := State.running_iff.2 ⟨hhalt, hwait⟩
      rcases stepCore_running_cases hrun hcore with ⟨ht, hcause, hword, ins, hdec, hexec⟩ | ⟨hraise, hexplained⟩
      · exact h.exec_fetched hrun hdec hexec ht hcause hword
      · rw [hraise] at hexplained ⊢
        exact h.raise_fetched hwait hexplained

/-! ## The events -/

theorem State.Inv.withEvents {s : State} (h : s.Inv) (e : List Event) : State.Inv { s with events := e } :=
  h.of_frame rfl id fun hu => hu.withEvents e

theorem State.Inv.tick {s : State} (h : s.Inv) : s.tick.Inv := by
  refine h.of_frame ?_ (by simp) State.Untouched.tick
  rw [State.tick]
  split <;> rfl

theorem State.Inv.setKeys {s : State} (h : s.Inv) (k : Word) : (s.setKeys k).Inv :=
  h.of_frame rfl id fun hu => hu.setKeys k

theorem State.resetEvent_inv (s : State) : s.resetEvent.Inv := State.Untouched.inv rfl reset_mem_wf

/-- `Load` is allowed to an untouched core only, and it stays one. -/
theorem State.Inv.loadImage {s : State} {bytes : List Byte} (h : s.Inv) (hload : s.loadable = true)
    (hlen : bytes.length ≤ 3584) : (s.loadImage 0x200 bytes).Inv := by
  have huntouched : s.Untouched := h.untouchedUntilStep hload
  exact (huntouched.loadImage 0x200 bytes).inv (State.loadImage_spec h.memoryCanonical 0x200 bytes (by omega)).1

/-- Settles O57: the reset state is untouched. -/
theorem invariantHoldsAtReset : Obligations.InvariantHoldsAtReset := State.Untouched.inv rfl reset_mem_wf

/-- Settles O58, by the event: taking it off the agenda keeps the invariant, and so does its effect. -/
theorem everyStepKeepsTheInvariant : Obligations.EveryStepKeepsTheInvariant := by
  intro s t h hstep
  obtain ⟨_, rest, -, hcase⟩ := step_cases hstep
  have hrest : State.Inv { s with events := rest } := h.withEvents rest
  rcases hcase with ⟨-, hcore⟩ | ⟨-, rfl⟩ | ⟨k, -, rfl⟩ | ⟨-, rfl⟩ | ⟨bytes, -, hload, hlen, rfl⟩
  · exact hrest.stepCore hcore
  · exact hrest.tick
  · exact hrest.setKeys k
  · exact State.resetEvent_inv _
  · exact hrest.loadImage hload hlen

end Sys2Proof.Machine
end
